-- ==== Sys2Proof/Word.lean ====
section
/-! DEFINITION. The word types of the block: the 32-bit registers and command words (20_memory.md R53,
30_encoding.md R70) and the unsigned fields inside them (00_scope.md R12). -/

namespace Sys2Proof

/-- A 32-bit register or command word; bit 31 is the most significant (00_scope.md R12, 20_memory.md R53). -/
abbrev Word := BitVec 32

/-- A `u8`: an unsigned value in 0..255 (00_scope.md R12). -/
abbrev Byte := BitVec 8

/-- The microsecond count of DELAY_US, 0..65535 (30_encoding.md R73, sub-form `U16`). -/
abbrev Micros := BitVec 16

/-- The 24-bit argument field of a command word (30_encoding.md R70). -/
abbrev Arg := BitVec 24

end Sys2Proof
end

