-- ==== Sys2Proof/Config.lean ====
section
/-! DEFINITION. The configuration: every parameter of 00_scope.md R6 and BTE_BASE (20_memory.md R50), which
configurations are admitted (R6, R8), the reference configuration REF16, and the machine's own configuration, whose
open values are free: an opaque constant with no body. -/

namespace Sys2Proof

/-- The configuration parameters (00_scope.md R6; 20_memory.md R50). "It is fixed when the model instance is built
and no command changes it" (R5). -/
structure Config where
  /-- `F_CPU`, in Hz. -/
  fCpu : Nat
  /-- `PIN_ID`: opaque; no rule reads it. -/
  pinId : Nat
  /-- `BTE_BASE`: the platform address of the register window. -/
  bteBase : Nat
  /-- `C_CMD`: cycles of the dispatch wait. -/
  cCmd : Nat
  /-- `C_PIN`: cycles of one pin micro-operation. -/
  cPin : Nat
  /-- `C_NOP`: cycles of one `uNOP`. -/
  cNop : Nat
  /-- `C_BITOVH`: cycles of loop bookkeeping before each bit of a byte. -/
  cBitOvh : Nat
  /-- `C_BYTEOVH`: cycles of bookkeeping before each byte of a pixel. -/
  cByteOvh : Nat
  /-- `N_H0`: `uNOP`s in the HIGH phase of a 0 bit. -/
  nH0 : Nat
  /-- `N_H1`: `uNOP`s in the HIGH phase of a 1 bit. -/
  nH1 : Nat
  /-- `N_L0`: cycles of the LOW padding after a 0 bit. -/
  nL0 : Nat
  /-- `N_L1`: cycles of the LOW padding after a 1 bit. -/
  nL1 : Nat
  /-- `US_TO_CYC`: the cycles the delay primitive spends for a microsecond count. -/
  usToCyc : Nat → Nat
  /-- `LATCH_US`: the LATCH hold in microseconds. -/
  latchUs : Nat
  /-- `T_RESET_NS`: the protocol's minimum reset LOW, in ns. -/
  tResetNs : Nat
  /-- `T0H_NS`: the nominal HIGH time of a 0 bit, in ns. -/
  t0hNs : ℚ
  /-- `T1H_NS`: the nominal HIGH time of a 1 bit, in ns. -/
  t1hNs : ℚ
  /-- `TBIT_NS`: the nominal bit period, in ns. -/
  tBitNs : ℚ
  /-- `TOL_H_NS`: the tolerance around the nominal HIGH times, in ns. -/
  tolHNs : ℚ
  /-- `TOL_P_NS`: the tolerance around the nominal period, in ns. -/
  tolPNs : ℚ
  /-- `RATIO_LO`: the least HIGH1/HIGH0 ratio. -/
  ratioLo : ℚ
  /-- `RATIO_HI`: the greatest HIGH1/HIGH0 ratio. -/
  ratioHi : ℚ
  /-- `S_SAMPLE`: the receiver's sampling offset after a rising edge, in cycles. -/
  sSample : Nat
  /-- `T_IDLE_MAX`: the longest LOW, in cycles, that the receiver never takes as a reset. -/
  tIdleMax : Nat

/-- `ceil(ns * F_CPU / 10^9)`: the least whole number of cycles that lasts `ns` nanoseconds (00_scope.md R7). -/
def cyclesOfNs (fCpu ns : Nat) : Nat := (ns * fCpu + 999999999) / 1000000000

namespace Config

/-- `T_RESET_CYC = ceil(T_RESET_NS * F_CPU / 10^9)` (00_scope.md R7). -/
def tResetCyc (c : Config) : Nat := cyclesOfNs c.fCpu c.tResetNs

/-- The constraints of 00_scope.md R6. A configuration that breaks one "is refused when the model is built. The
model gives it no meaning" (R8): the machine is built over an admitted one, `Sys2Proof.cfg`. -/
structure Admitted (c : Config) : Prop where
  fCpu_pos : 0 < c.fCpu
  cPin_pos : 1 ≤ c.cPin
  cNop_one : c.cNop = 1
  nH_lt : c.nH0 < c.nH1
  usToCyc_mono : ∀ u v, u ≤ v → c.usToCyc u ≤ c.usToCyc v
  usToCyc_zero : c.usToCyc 0 = 0
  latchUs_eq : c.latchUs = 60
  tResetNs_eq : c.tResetNs = 50000
  tIdleMax_lt : c.tIdleMax < c.tResetCyc

/-- REF16, the 16 MHz reference configuration (00_scope.md R6): "used only by the test vectors", so only tests and
witnesses name it. `PIN_ID` and `BTE_BASE` have no value in REF16 and no rule reads them: 0 stands there. -/
def ref16 : Config where
  fCpu := 16000000
  pinId := 0
  bteBase := 0
  cCmd := 4
  cPin := 2
  cNop := 1
  cBitOvh := 4
  cByteOvh := 2
  nH0 := 4
  nH1 := 9
  nL0 := 8
  nL1 := 3
  usToCyc := fun u => (u * 16000000 + 999999) / 1000000
  latchUs := 60
  tResetNs := 50000
  t0hNs := 350
  t1hNs := 700
  tBitNs := 1250
  tolHNs := 150
  tolPNs := 600
  ratioLo := 3 / 2
  ratioHi := 5 / 2
  sSample := 8
  tIdleMax := 80

/-- Numbers that no constraint limits, one admitted configuration for each choice of them (`build`). The constraints
of 00_scope.md R6 are met by construction: a count that must be positive is given as its predecessor, a monotone
function as its increments, a bounded number as any number whose remainder is taken. -/
structure Open where
  fCpuPred : Nat
  pinId : Nat
  bteBase : Nat
  cCmd : Nat
  cPinPred : Nat
  cBitOvh : Nat
  cByteOvh : Nat
  nH0 : Nat
  nH1Excess : Nat
  nL0 : Nat
  nL1 : Nat
  usIncrement : Nat → Nat
  t0hNs : ℚ
  t1hNs : ℚ
  tBitNs : ℚ
  tolHNs : ℚ
  tolPNs : ℚ
  ratioLo : ℚ
  ratioHi : ℚ
  sSample : Nat
  idleDraw : Nat
  deriving Inhabited

/-- The sum of the first `n` increments: a monotone function that is 0 at 0. -/
def sumIncrements (f : Nat → Nat) : Nat → Nat
  | 0 => 0
  | n + 1 => sumIncrements f n + f n

/-- The admitted configuration for a choice of the open numbers. Every admitted configuration is one of these
(`exists_build`, Laws/Config.lean), so that the free choice leaves none out. -/
def build (o : Open) : Config where
  fCpu := o.fCpuPred + 1
  pinId := o.pinId
  bteBase := o.bteBase
  cCmd := o.cCmd
  cPin := o.cPinPred + 1
  cNop := 1
  cBitOvh := o.cBitOvh
  cByteOvh := o.cByteOvh
  nH0 := o.nH0
  nH1 := o.nH0 + o.nH1Excess + 1
  nL0 := o.nL0
  nL1 := o.nL1
  usToCyc := sumIncrements o.usIncrement
  latchUs := 60
  tResetNs := 50000
  t0hNs := o.t0hNs
  t1hNs := o.t1hNs
  tBitNs := o.tBitNs
  tolHNs := o.tolHNs
  tolPNs := o.tolPNs
  ratioLo := o.ratioLo
  ratioHi := o.ratioHi
  sSample := o.sSample
  tIdleMax := o.idleDraw % cyclesOfNs (o.fCpuPred + 1) 50000

/-- The parameters the spec leaves OPEN (93_implementation_defined.md I14): free, nothing can evaluate them
(notes/assumptions/4.md). -/
opaque openValues : Open

/-- The stalls the environment draws while interrupts are enabled: "any natural number, chosen by the environment
under no law" (60_exceptions.md R210), one a draw (notes/assumptions/5.md). -/
opaque stallDraw : Nat → Nat

end Config

/-- The machine's configuration: an admitted one, otherwise free (00_scope.md R5, R8). -/
def cfg : Config := Config.build Config.openValues

end Sys2Proof
end

