-- ==== Sys2Proof/Syntax.lean ====
section
/-! DEFINITION. The ten commands (30_encoding.md R72), one constructor a row of spec/opcode_table.json, and the
lines of the assembly language that names them (30_encoding.md R79, R81). -/

namespace Sys2Proof

/-- A legal command. Every operand has exactly the width of its field (30_encoding.md R73), so that every term of
this type is a command of the block: "all inputs (8-bit channel values) are valid by construction" (R77). -/
inductive Instr where
  /-- NOP (40_sequencer.md R110). -/
  | nop
  /-- PIN_OUTPUT (40_sequencer.md R111). -/
  | pinOutput
  /-- PIN_HIGH (40_sequencer.md R112). -/
  | pinHigh
  /-- PIN_LOW (40_sequencer.md R113). -/
  | pinLow
  /-- DELAY_US u (40_sequencer.md R114). -/
  | delayUs (u : Micros)
  /-- INIT (45_init.md R170). -/
  | init
  /-- EMIT_BIT v (41_bit_emitter.md R130). -/
  | emitBit (v : Bool)
  /-- EMIT_BYTE x (42_byte_emitter.md R140). -/
  | emitByte (x : Byte)
  /-- SEND_PIXEL g, r, b (43_pixel_emitter.md R150). -/
  | sendPixel (g r b : Byte)
  /-- LATCH (44_latch.md R160). -/
  | latch
  deriving DecidableEq, Repr

/-- A line of the assembly language (30_encoding.md R79) or a pseudo-instruction (R81). Numbers are as written:
one that does not fit its field is a term of this type, which the assembler refuses. -/
inductive AsmLine where
  | nop
  | pinOutput
  | pinHigh
  | pinLow
  | delayUs (u : Nat)
  | init
  | emitBit (v : Nat)
  | emitByte (x : Nat)
  /-- `SEND_PIXEL` in its named form (in any order) or its positional form (green, red, blue). -/
  | sendPixel (g r b : Nat)
  | latch
  /-- `.word w`: the raw word, legal or not. -/
  | rawWord (w : Nat)
  /-- `EMIT_PIXEL`: the other name of SEND_PIXEL (R81, 90_conflicts.md C1). -/
  | emitPixel (g r b : Nat)
  /-- `PIXEL_RGB R, G, B`: the operands in red, green, blue order (R81). -/
  | pixelRgb (r g b : Nat)
  /-- `PIXEL_OFF` (R81). -/
  | pixelOff
  /-- `NOPS n`: n copies of NOP (R81). -/
  | nops (n : Nat)
  deriving DecidableEq, Repr

end Sys2Proof
end

