-- ==== Sys2Proof/WellFormed.lean ====
section
/-! DEFINITION. Which lines of assembly are well formed: every number fits its field (30_encoding.md R73, R79: "A
number that does not fit its field is refused by the assembler, never truncated"). A term of `Instr` needs no check:
its operands have the widths of their fields. Which 32-bit words are legal is `Legal` in Decode.lean (R76). -/

namespace Sys2Proof

/-- The number fits a field of `width` bits. -/
def fits (width n : Nat) : Bool := decide (n < 2 ^ width)

/-- Every number of the line fits its field (30_encoding.md R73, R79, R81). -/
def AsmLine.wellFormed : AsmLine → Bool
  | .nop => true
  | .pinOutput => true
  | .pinHigh => true
  | .pinLow => true
  | .delayUs u => fits 16 u
  | .init => true
  | .emitBit v => fits 1 v
  | .emitByte x => fits 8 x
  | .sendPixel g r b => fits 8 g && fits 8 r && fits 8 b
  | .latch => true
  | .rawWord w => fits 32 w
  | .emitPixel g r b => fits 8 g && fits 8 r && fits 8 b
  | .pixelRgb r g b => fits 8 r && fits 8 g && fits 8 b
  | .pixelOff => true
  | .nops _ => true

end Sys2Proof
end

