-- ==== Sys2Proof/Decode.lean ====
section
/-! DEFINITION. The command word: its fields, which words are legal, the decoder and the encoder (30_encoding.md R70
to R79). The decoder is total on 32-bit words and refuses every illegal word by the name of what is wrong with it. -/

namespace Sys2Proof

/-- `OP(w) = w[31:28]` (30_encoding.md R70). -/
def opField (w : Word) : BitVec 4 := w.extractLsb' 28 4

/-- `RSV(w) = w[27:24]` (30_encoding.md R70). -/
def rsvField (w : Word) : BitVec 4 := w.extractLsb' 24 4

/-- `ARG(w) = w[23:0]` (30_encoding.md R70). -/
def argField (w : Word) : Arg := w.extractLsb' 0 24

/-- `Legal(w)` (30_encoding.md R76, the definition by fields). -/
def Legal (w : Word) : Bool :=
  rsvField w == 0 &&
    match (opField w).toNat with
    | 0x0 | 0x1 | 0x2 | 0x3 | 0x5 | 0x9 => argField w == 0
    | 0x4 => (argField w).extractLsb' 16 8 == 0
    | 0x6 => (argField w).extractLsb' 1 23 == 0
    | 0x7 => (argField w).extractLsb' 8 16 == 0
    | 0x8 => true
    | _ => false

/-- One row of the (match, mask) table of 30_encoding.md R76. -/
structure MaskRow where
  mnemonic : String
  pattern : Word
  mask : Word
  deriving DecidableEq, Repr

/-- The (match, mask) table of 30_encoding.md R76. -/
def maskRows : List MaskRow :=
  [ ⟨"NOP", 0x00000000, 0xFFFFFFFF⟩,
    ⟨"PIN_OUTPUT", 0x10000000, 0xFFFFFFFF⟩,
    ⟨"PIN_HIGH", 0x20000000, 0xFFFFFFFF⟩,
    ⟨"PIN_LOW", 0x30000000, 0xFFFFFFFF⟩,
    ⟨"DELAY_US", 0x40000000, 0xFFFF0000⟩,
    ⟨"INIT", 0x50000000, 0xFFFFFFFF⟩,
    ⟨"EMIT_BIT", 0x60000000, 0xFFFFFFFE⟩,
    ⟨"EMIT_BYTE", 0x70000000, 0xFFFFFF00⟩,
    ⟨"SEND_PIXEL", 0x80000000, 0xFF000000⟩,
    ⟨"LATCH", 0x90000000, 0xFFFFFFFF⟩ ]

/-- The word matches the row: `(w AND mask) = match` (30_encoding.md R76). -/
def MaskRow.matchesWord (r : MaskRow) (w : Word) : Bool := w &&& r.mask == r.pattern

/-- What is wrong with an illegal word (30_encoding.md R77). All three raise ILLEGAL. -/
inductive DecodeError where
  /-- `OP` is 0xA to 0xF. -/
  | reservedOpcode
  /-- `RSV` is not 0. -/
  | reservedField
  /-- A "must be 0" field of the argument's sub-form is not 0. -/
  | argumentField
  deriving DecidableEq, Repr

/-- Sub-form `Z`: the whole argument must be 0 (30_encoding.md R73). -/
def formZ (a : Arg) (i : Instr) : Except DecodeError Instr :=
  if a = 0 then .ok i else .error .argumentField

/-- Sub-form `U16`: `ARG[23:16]` must be 0, `u = ARG[15:0]` (30_encoding.md R73). -/
def formU16 (a : Arg) (i : Micros → Instr) : Except DecodeError Instr :=
  if a.extractLsb' 16 8 = 0 then .ok (i (a.extractLsb' 0 16)) else .error .argumentField

/-- Sub-form `B1`: `ARG[23:1]` must be 0, `v = ARG[0]` (30_encoding.md R73). -/
def formB1 (a : Arg) (i : Bool → Instr) : Except DecodeError Instr :=
  if a.extractLsb' 1 23 = 0 then .ok (i (a.getLsbD 0)) else .error .argumentField

/-- Sub-form `U8`: `ARG[23:8]` must be 0, `x = ARG[7:0]` (30_encoding.md R73). -/
def formU8 (a : Arg) (i : Byte → Instr) : Except DecodeError Instr :=
  if a.extractLsb' 8 16 = 0 then .ok (i (a.extractLsb' 0 8)) else .error .argumentField

/-- Sub-form `P`: `g = ARG[23:16]`, `r = ARG[15:8]`, `b = ARG[7:0]`, every argument legal (30_encoding.md R73, R75). -/
def formP (a : Arg) (i : Byte → Byte → Byte → Instr) : Except DecodeError Instr :=
  .ok (i (a.extractLsb' 16 8) (a.extractLsb' 8 8) (a.extractLsb' 0 8))

/-- The command a word stands for: selected "by `OP` alone", then the sub-form checked (30_encoding.md R71, R72). -/
def decode (w : Word) : Except DecodeError Instr :=
  if 9 < (opField w).toNat then .error .reservedOpcode
  else if rsvField w ≠ 0 then .error .reservedField
  else match (opField w).toNat with
    | 0x0 => formZ (argField w) .nop
    | 0x1 => formZ (argField w) .pinOutput
    | 0x2 => formZ (argField w) .pinHigh
    | 0x3 => formZ (argField w) .pinLow
    | 0x4 => formU16 (argField w) .delayUs
    | 0x5 => formZ (argField w) .init
    | 0x6 => formB1 (argField w) .emitBit
    | 0x7 => formU8 (argField w) .emitByte
    | 0x8 => formP (argField w) .sendPixel
    | 0x9 => formZ (argField w) .latch
    | _ => .error .reservedOpcode

/-- The opcode of a command (30_encoding.md R72). -/
def Instr.opcode : Instr → BitVec 4
  | .nop => 0x0
  | .pinOutput => 0x1
  | .pinHigh => 0x2
  | .pinLow => 0x3
  | .delayUs _ => 0x4
  | .init => 0x5
  | .emitBit _ => 0x6
  | .emitByte _ => 0x7
  | .sendPixel _ _ _ => 0x8
  | .latch => 0x9

/-- The argument `{g, r, b}` of a pixel: green in bits 23:16, red in 15:8, blue in 7:0 (30_encoding.md R75). -/
def pixelArg (g r b : Byte) : Arg := g ++ r ++ b

/-- The argument field of a command (30_encoding.md R73). -/
def Instr.argument : Instr → Arg
  | .nop => 0
  | .pinOutput => 0
  | .pinHigh => 0
  | .pinLow => 0
  | .delayUs u => 0#8 ++ u
  | .init => 0
  | .emitBit v => 0#23 ++ BitVec.ofBool v
  | .emitByte x => 0#16 ++ x
  | .sendPixel g r b => pixelArg g r b
  | .latch => 0

/-- The word with the fields `OP`, `RSV = 0` and `ARG` (30_encoding.md R70). -/
def packWord (op : BitVec 4) (a : Arg) : Word := op ++ 0#4 ++ a

/-- The word of a command (30_encoding.md R70, R72, R73). -/
def encode (i : Instr) : Word := packWord i.opcode i.argument

/-- `NeedsInit(op)`: EMIT_BIT, EMIT_BYTE, SEND_PIXEL and LATCH (30_encoding.md R80). -/
def Instr.needsInit : Instr → Bool
  | .nop => false
  | .pinOutput => false
  | .pinHigh => false
  | .pinLow => false
  | .delayUs _ => false
  | .init => false
  | .emitBit _ => true
  | .emitByte _ => true
  | .sendPixel _ _ _ => true
  | .latch => true

/-- The command word whose low `nbits` bits are `w` and whose bits above are 0. -/
def tableWord (nbits w : Nat) : Word := BitVec.ofNat 32 (w % 2 ^ nbits)

/-- The command the decoder reads from the opcode table's word. A command is ONE 32-bit word (30_encoding.md R71),
so nothing is laid out in bytes: "the byte order of the platform bus cannot be observed" (20_memory.md R53). -/
def decodeTableWord (nbits w : Nat) : Option Instr :=
  match decode (tableWord nbits w) with
  | .ok i => some i
  | .error _ => none

end Sys2Proof
end

