-- ==== Sys2Proof/Machine/State.lean ====
section
/-! DEFINITION. The state of the block (10_state.md R20), the moves of the host and the environment that drive it
(60_exceptions.md R215, 70_reset_and_hazards.md R240, R241), the reasons a step stops, and the power-on state. -/

namespace Sys2Proof.Machine

/-- The pin direction (10_state.md R22). -/
inductive Dir where
  | IN
  | OUT
  deriving DecidableEq, Repr

/-- An effective pin value: not driven, LOW, HIGH (10_state.md R25). -/
inductive Pin where
  | Z
  | L
  | H
  deriving DecidableEq, Repr

/-- The five micro-operations (40_sequencer.md R100). -/
inductive MicroOp where
  /-- One single-cycle no-operation. -/
  | uNOP
  /-- Busy-wait `n` cycles. -/
  | uWAIT (n : Nat)
  /-- Set the pin direction to output. -/
  | uSETOUT
  /-- Set the pin HIGH. -/
  | uSETHI
  /-- Set the pin LOW. -/
  | uSETLO
  deriving DecidableEq, Repr

/-- The three sticky faults (60_exceptions.md R201, R205). They are bits of STATUS and never stop the machine. -/
inductive FaultBit where
  | ILLEGAL
  | NOINIT
  | OVERRUN
  deriving DecidableEq, Repr

/-- Which of the two hosts of 60_exceptions.md R215 drives the block. -/
inductive HostKind where
  /-- The normative host: its next step is enabled only once the block is not busy. -/
  | sync
  /-- A host, such as a bus master polling STATUS, that also acts while the block is busy. -/
  | async
  deriving DecidableEq, Repr

/-- What an agent other than the free-running sequencer does next. The list of them in State is the one total order
of steps (20_memory.md R64; notes/assumptions/1.md). -/
inductive Move where
  /-- The host's `Issue(w)`: enabled when not busy (60_exceptions.md R215). -/
  | issue (w : Word)
  /-- The asynchronous host's `IssueBusy(w)`: enabled when busy (60_exceptions.md R215). -/
  | issueBusy (w : Word)
  /-- The host's `ReadStatus` (60_exceptions.md R215). -/
  | readStatus
  /-- A host read of `width` bytes at byte offset `off` (20_memory.md R55). -/
  | regRead (off width : Nat)
  /-- A host write of `width` bytes at byte offset `off` (20_memory.md R56). -/
  | regWrite (off width : Nat) (w : Word)
  /-- The host's `Idle(n)`: enabled when not busy (60_exceptions.md R215). -/
  | idle (n : Nat)
  /-- The host's `SetIE(b)`: enabled when not busy (60_exceptions.md R215). -/
  | setIE (b : Bool)
  /-- The sequencer's turn, with the environment's stall draw `s` (40_sequencer.md R101). -/
  | seq (s : Nat)
  /-- The environment's `Reset()`: enabled at any time (70_reset_and_hazards.md R240). -/
  | reset
  /-- The environment's `ResetAt(d)`: a reset `d` cycles into the head micro-operation (R241). -/
  | resetAt (d : Nat)
  deriving DecidableEq, Repr

/-- The state. The first nine fields are the block's, all of them ("No other state exists", 10_state.md R20); the
last four are the model's own and stand for the agents around the block. -/
@[ext]
structure State where
  /-- The pin direction (R22). -/
  dir : Dir
  /-- The pin output latch: true is HIGH (R23). -/
  level : Bool
  /-- Sticky fault: an illegal command word (R27). -/
  fIllegal : Bool
  /-- Sticky fault: an emission command before INIT (R27). -/
  fNoinit : Bool
  /-- Sticky fault: a command written while busy (R27). -/
  fOverrun : Bool
  /-- The micro-operations of the in-flight command not yet executed (R28). -/
  pending : List MicroOp
  /-- The CPU's global interrupt-enable, an input of the block (R29). -/
  ie : Bool
  /-- Virtual time: the clock cycles since power-on (R30). -/
  cyc : Nat
  /-- Every change of the effective pin value, time-stamped, oldest first (R32). -/
  trace : List (Nat × Pin)
  /-- MODEL: what the host and the environment do next (notes/assumptions/1.md). -/
  inputs : List Move
  /-- MODEL: the host's kind (notes/assumptions/7.md). -/
  hostKind : HostKind
  /-- MODEL: the values reads have returned to the host, oldest first (notes/assumptions/6.md). -/
  hostReads : List Word
  /-- MODEL: how many free stall values the environment has drawn (notes/assumptions/5.md). -/
  draws : Nat
  deriving DecidableEq, Repr

/-- Why the machine has no next step. Each is a stop that the spec states: "the host is stuck", a step that is not
enabled, or the end of a run. No instruction raises one, and the block's own faults are bits of STATUS. -/
inductive Fault where
  /-- Raised by a host access of another width or offset: "has no step in the model. The host is stuck"
  (20_memory.md R52). Safe: the machine stops where the spec stops. -/
  | noAccess (off width : Nat)
  /-- Raised by `IssueBusy` when the block is not busy or the host is synchronous (60_exceptions.md R215). Safe: the
  spec has no such step. -/
  | issueBusyNotEnabled
  /-- Raised by an explicit turn of the sequencer when nothing is pending, or with a stall while interrupts are
  disabled (40_sequencer.md R101). Safe: the spec has no such step. -/
  | seqNotEnabled
  /-- Raised by `ResetAt(d)` when `d` does not fall inside the head micro-operation (70_reset_and_hazards.md R241).
  Safe: the spec has no such step. -/
  | resetNotInside
  /-- Raised when no move is left, the host's or the environment's, and the block is not busy: the run has ended
  (60_exceptions.md R220) and nothing else happens. Safe: the spec says nothing of what comes after. -/
  | runEnded
  deriving DecidableEq, Repr

/-- Why an instruction has no meaning. No arm of exec answers one: every instruction has its meaning. -/
inductive Refusal where
  /-- Raised by exec's arm of an instruction not modelled yet. Safe: the machine stops. -/
  | notModelled (mnemonic : String)
  deriving DecidableEq, Repr

/-- The answer of a step. -/
abbrev Outcome := Host.Outcome State Fault Refusal

/-- The power-on state (70_reset_and_hazards.md R240): the state after `Reset()`, with `cyc = 0` and
`trace = [(0, Z)]`. No host program is loaded (notes/assumptions/2.md). -/
def State.reset : State where
  dir := .IN
  level := false
  fIllegal := false
  fNoinit := false
  fOverrun := false
  pending := []
  ie := false
  cyc := 0
  trace := [(0, .Z)]
  inputs := []
  hostKind := .sync
  hostReads := []
  draws := 0

end Sys2Proof.Machine
end

