-- ==== Sys2Proof/Machine/Flags.lean ====
section
/-! DEFINITION. The status bits: BUSY, the effective pin value, the STATUS word (10_state.md R25, R28, R36) and the
sticky fault bits (60_exceptions.md R201, R205). The block has no condition codes (10_state.md R38). -/

namespace Sys2Proof.Machine

/-- `busy(S) = (S.pending ≠ [])` (10_state.md R28). -/
def State.busy (s : State) : Bool := !s.pending.isEmpty

/-- The effective pin value `eff(S)` (10_state.md R25). -/
def State.eff (s : State) : Pin :=
  match s.dir with
  | .IN => .Z
  | .OUT => if s.level then .H else .L

/-- The value of the STATUS bit DIR: 1 if the direction is OUT (10_state.md R36). -/
def Dir.isOut : Dir → Bool
  | .IN => false
  | .OUT => true

/-- The STATUS word (10_state.md R36): reserved bits 31:11, the three fault bits, reserved bits 7:3, LEVEL, DIR, BUSY. -/
def status (s : State) : Word :=
  0#21 ++ BitVec.ofBool s.fOverrun ++ BitVec.ofBool s.fNoinit ++ BitVec.ofBool s.fIllegal ++ 0#5 ++
    BitVec.ofBool s.level ++ BitVec.ofBool s.dir.isOut ++ BitVec.ofBool s.busy

/-- The code of a fault: its STATUS bit number (60_exceptions.md R205). -/
def FaultBit.code : FaultBit → Nat
  | .ILLEGAL => 8
  | .NOINIT => 9
  | .OVERRUN => 10

/-- `raise Fault(k)`: set the sticky bit, and nothing else: no mode, no mask, no saved state (60_exceptions.md R200,
R201, R208). What becomes of `pending` is the acceptance's part (30_encoding.md R80). -/
def raiseFault (k : FaultBit) (s : State) : State :=
  match k with
  | .ILLEGAL => { s with fIllegal := true }
  | .NOINIT => { s with fNoinit := true }
  | .OVERRUN => { s with fOverrun := true }

end Sys2Proof.Machine
end

