-- ==== Sys2Proof/Machine/Ops.lean ====
section
/-! DEFINITION. The named operations over the state: time and the trace (10_state.md R31, R33), the sequencer's step
(40_sequencer.md R101), reset (70_reset_and_hazards.md R240, R241), the register window (20_memory.md R52 to R56),
and the one operation that starts or faults a command (30_encoding.md R80). -/

namespace Sys2Proof.Machine

/-- `advance(n)` (10_state.md R31). -/
def advance (n : Nat) (s : State) : State := { s with cyc := s.cyc + n }

/-- The pin value of the trace's last event (10_state.md R32). -/
def State.lastPin (s : State) : Option Pin := s.trace.getLast?.map Prod.snd

/-- `setpin()`: log the effective pin value if it is not the last one logged (10_state.md R33). -/
def setpin (s : State) : State :=
  { s with trace := if s.lastPin = some s.eff then s.trace else s.trace ++ [(s.cyc, s.eff)] }

/-- The cost of a micro-operation in cycles, with no stall (40_sequencer.md R108). -/
def MicroOp.cost (c : Config) : MicroOp → Nat
  | .uNOP => c.cNop
  | .uWAIT n => n
  | .uSETOUT => c.cPin
  | .uSETHI => c.cPin
  | .uSETLO => c.cPin

/-- `dur(L)`: the cost of a list (40_sequencer.md R108). -/
def dur (c : Config) : List MicroOp → Nat
  | [] => 0
  | op :: rest => op.cost c + dur c rest

/-- One micro-operation: its cycles elapse and a pin change is stamped at their end (40_sequencer.md R101 to R107). -/
def execMicro (c : Config) (op : MicroOp) (s : State) : State :=
  match op with
  | .uNOP => advance c.cNop s
  | .uWAIT n => advance n s
  | .uSETOUT => setpin { advance c.cPin s with dir := .OUT }
  | .uSETHI => setpin { advance c.cPin s with level := true }
  | .uSETLO => setpin { advance c.cPin s with level := false }

/-- The sequencer may step with the stall `st`: something is pending, and no stall while interrupts are disabled
(40_sequencer.md R101). -/
def seqEnabled (st : Nat) (s : State) : Bool := s.busy && (st == 0 || s.ie)

/-- `SeqStep(s)`: the stall, then the whole head micro-operation, then the head is removed (40_sequencer.md R101).
With nothing pending the step is not enabled and the state stays. -/
def seqStep (c : Config) (st : Nat) (s : State) : State :=
  match s.pending with
  | [] => s
  | op :: rest => { execMicro c op (advance st s) with pending := rest }

/-- The sequencer's step with the environment's own draw: no stall while interrupts are disabled, else the next
free value (60_exceptions.md R210; notes/assumptions/5.md). -/
def seqStepDrawn (c : Config) (s : State) : State :=
  if s.ie then { seqStep c (Config.stallDraw s.draws) s with draws := s.draws + 1 } else seqStep c 0 s

/-- `Reset()` (70_reset_and_hazards.md R240): `cyc` and the trace so far stay. -/
def doReset (s : State) : State :=
  setpin { s with dir := .IN, level := false, fIllegal := false, fNoinit := false, fOverrun := false,
                  pending := [], ie := false }

/-- `ResetAt(d)` falls inside the head micro-operation, or `d = 0` when idle (70_reset_and_hazards.md R241). -/
def resetAtEnabled (c : Config) (d : Nat) (s : State) : Bool :=
  match s.pending with
  | [] => d == 0
  | op :: _ => decide (d < op.cost c)

/-- `ResetAt(d)`: `d` cycles elapse, the head micro-operation has no effect, then `Reset()` (R241). -/
def doResetAt (d : Nat) (s : State) : State := doReset (advance d s)

/-- The dispatch wait that begins every accepted command (30_encoding.md R80). -/
def dispatchWait (c : Config) : MicroOp := .uWAIT c.cCmd

/-- A write to CMD while busy: the OVERRUN bit, and the word is dropped (60_exceptions.md R204). -/
def overrun (s : State) : State := raiseFault .OVERRUN s

/-- An illegal word written while not busy: the ILLEGAL bit, and the dispatch wait (60_exceptions.md R202). -/
def illegal (c : Config) (s : State) : State := raiseFault .ILLEGAL { s with pending := [dispatchWait c] }

/-- An emission command or LATCH before INIT: the NOINIT bit, and the dispatch wait (60_exceptions.md R203). -/
def noinit (c : Config) (s : State) : State := raiseFault .NOINIT { s with pending := [dispatchWait c] }

/-- The acceptance of a LEGAL command whose micro-program is `ops` (30_encoding.md R80): OVERRUN if busy, NOINIT if
the command needs INIT and the pin is no output, else the dispatch wait and the micro-program are pending. -/
def acceptCommand (c : Config) (needsInit : Bool) (ops : List MicroOp) (s : State) : State :=
  if s.busy then overrun s
  else if needsInit && !s.dir.isOut then noinit c s
  else { s with pending := dispatchWait c :: ops }

/-- `RegRead(off, width)`: the value, or nothing where the access has no step (20_memory.md R52, R55). -/
def regRead (off width : Nat) (s : State) : Option Word :=
  if width = 4 ∧ off = 0x00 then some 0
  else if width = 4 ∧ off = 0x04 then some (status s)
  else none

/-- Which register a write reaches (20_memory.md R54, R56). -/
inductive WriteTarget where
  | cmd
  | status
  deriving DecidableEq, Repr

/-- The target of `RegWrite(off, width, _)`, or nothing where the access has no step (20_memory.md R52, R56). -/
def writeTarget (off width : Nat) : Option WriteTarget :=
  if width = 4 ∧ off = 0x00 then some .cmd
  else if width = 4 ∧ off = 0x04 then some .status
  else none

/-- The byte offset of a platform address inside the window of 8 bytes at `BTE_BASE`; every other address is the
platform's, not the block's (20_memory.md R50, R54). -/
def busOffset (c : Config) (addr : Nat) : Option Nat :=
  if c.bteBase ≤ addr ∧ addr < c.bteBase + 8 then some (addr - c.bteBase) else none

end Sys2Proof.Machine
end

