-- ==== Sys2Proof/Machine/Operands.lean ====
section
/-! DEFINITION. What the operands of the commands become: the calibration counts of a bit (00_scope.md R7), the delay
of a microsecond count (00_scope.md R6, R7), and the micro-sequences of a bit, a byte and a pixel (41_bit_emitter.md R131,
42_byte_emitter.md R141, R142, 43_pixel_emitter.md R151, R152), with the loop registers as a view (10_state.md R34). -/

namespace Sys2Proof.Machine

/-- `N_H(v)`: the `uNOP`s of the HIGH phase (00_scope.md R7). -/
def nH (c : Config) (v : Bool) : Nat := if v then c.nH1 else c.nH0

/-- `N_L(v)`: the cycles of the LOW padding (00_scope.md R7). -/
def nL (c : Config) (v : Bool) : Nat := if v then c.nL1 else c.nL0

/-- `N_LATCH = US_TO_CYC(LATCH_US)` (00_scope.md R7). -/
def nLatch (c : Config) : Nat := c.usToCyc c.latchUs

/-- `US_TO_CYC(u)` of a DELAY_US operand (40_sequencer.md R114). -/
def delayCycles (c : Config) (u : Micros) : Nat := c.usToCyc u.toNat

/-- `Bit(v)` (41_bit_emitter.md R131). -/
def bitOps (c : Config) (v : Bool) : List MicroOp :=
  [.uSETHI] ++ List.replicate (nH c v) .uNOP ++ [.uSETLO, .uWAIT (nL c v)]

/-- The byte loop (42_byte_emitter.md R141) with `BC` bits still to send and the working value `SR`: the loop
bookkeeping and `Bit(SR[7])`, then `SR` shifted left by one modulo 256 and `BC` less one. -/
def byteLoop (c : Config) : (bc : Nat) → (sr : Byte) → List MicroOp
  | 0, _ => []
  | bc + 1, sr => ([.uWAIT c.cBitOvh] ++ bitOps c (sr.getLsbD 7)) ++ byteLoop c bc (sr <<< 1)

/-- `Byte(x)`: the loop from `SR = x`, `BC = 8` (42_byte_emitter.md R141). -/
def byteOps (c : Config) (x : Byte) : List MicroOp := byteLoop c 8 x

/-- The unrolled form of `Byte(x)` (42_byte_emitter.md R142). -/
def byteUnrolled (c : Config) (x : Byte) : List MicroOp :=
  [7, 6, 5, 4, 3, 2, 1, 0].flatMap fun i => [.uWAIT c.cBitOvh] ++ bitOps c (x.getLsbD i)

/-- The pixel loop (43_pixel_emitter.md R151) with `CH` bytes still to send: `c = a[8*CH-1 : 8*CH-8]`, the byte's
bookkeeping and `Byte(c)`, then `CH` less one. -/
def pixelLoop (c : Config) : (ch : Nat) → (a : Arg) → List MicroOp
  | 0, _ => []
  | ch + 1, a => ([.uWAIT c.cByteOvh] ++ byteOps c (a.extractLsb' (8 * ch) 8)) ++ pixelLoop c ch a

/-- `Pixel(a)`: the loop from `CH = 3` (43_pixel_emitter.md R151). -/
def pixelOps (c : Config) (a : Arg) : List MicroOp := pixelLoop c 3 a

/-- The unrolled form of `Pixel({g, r, b})` (43_pixel_emitter.md R152). -/
def pixelUnrolled (c : Config) (g r b : Byte) : List MicroOp :=
  [.uWAIT c.cByteOvh] ++ byteOps c g ++ [.uWAIT c.cByteOvh] ++ byteOps c r ++ [.uWAIT c.cByteOvh] ++ byteOps c b

/-- The bits of a byte in the order they go onto the wire: `x[7]` first (20_memory.md R57). -/
def byteBits (x : Byte) : List Bool := [7, 6, 5, 4, 3, 2, 1, 0].map fun i => x.getLsbD i

/-- The 24 bits of a pixel in the order they go onto the wire: `a[23]` first (20_memory.md R59). -/
def pixelBits (a : Arg) : List Bool := (List.range 24).map fun j => a.getLsbD (23 - j)

/-! The loop registers read back from the pending list: "`SR`, `BC` and `CH` are a view of that list, not extra
state" (92_eei_decisions.md D29; 10_state.md R34; notes/assumptions/10.md). The spec gives their values in the loops of R141
and R151 only. Where it is silent the views' values are the model's own choice (DESIGN CHOICE, safe:
notes/assumptions/21.md): during an EMIT_BIT, which has no loop, `BC = 1`, `CH = 1` and `SR` has the bit in bit 7 until its
`uSETHI` has run, and then all are 0; during an EMIT_BYTE `CH = 1` until its last `uSETHI` has run; between two bytes of a
pixel `BC` and `SR` are the next byte's; inside a bit, from its `uSETHI` on, all are past that bit. -/

/-- The `uNOP`s at the head of a list. -/
def nopRun : List MicroOp → Nat
  | .uNOP :: rest => nopRun rest + 1
  | _ => 0

/-- The values of the bits whose HIGH phase is still to come: each `uSETHI` followed by a run of `uNOP`s and
`uSETLO` is one bit, a 1 when the run is `N_H1` long. -/
def bitsToSend (c : Config) : List MicroOp → List Bool
  | [] => []
  | .uSETHI :: rest =>
    if (rest.drop (nopRun rest)).head? = some .uSETLO then (nopRun rest == c.nH1) :: bitsToSend c rest
    else bitsToSend c rest
  | _ :: rest => bitsToSend c rest

/-- Bits packed most significant first into the top of a byte. -/
def packByte (bits : List Bool) : Byte :=
  BitVec.ofNat 8 ((bits ++ List.replicate 8 false).take 8 |>.foldl (fun n b => 2 * n + b.toNat) 0)

/-- The view `BC`: the bits of the byte in flight still to send (10_state.md R34). DESIGN CHOICE: 1 during an EMIT_BIT until
its `uSETHI` has run, and 8 between two bytes of a pixel, where the spec is silent (notes/assumptions/21.md). -/
def State.viewBC (c : Config) (s : State) : Nat :=
  let n := (bitsToSend c s.pending).length
  if n = 0 then 0 else (n - 1) % 8 + 1

/-- The view `SR`: the bits of the byte in flight still to send, at the top of the working value, zeros shifted in
below (10_state.md R34, 42_byte_emitter.md R142). DESIGN CHOICE: during an EMIT_BIT the bit stands in bit 7 until its
`uSETHI` has run, and between two bytes of a pixel the next byte does, where the spec is silent (notes/assumptions/21.md). -/
def State.viewSR (c : Config) (s : State) : Byte :=
  packByte ((bitsToSend c s.pending).take (s.viewBC c))

/-- The view `CH`: the bytes still to send, the one in flight among them (10_state.md R34, 43_pixel_emitter.md R151). DESIGN
CHOICE: 1 during an EMIT_BYTE or an EMIT_BIT, until its last `uSETHI` has run, where the spec is silent
(notes/assumptions/21.md). -/
def State.viewCH (c : Config) (s : State) : Nat := ((bitsToSend c s.pending).length + 7) / 8

end Sys2Proof.Machine
end

