-- ==== Sys2Proof/Machine/Emission.lean ====
section
/-! DEFINITION. The five operations of the source: INIT (45_init.md R170), EMIT_BIT (41_bit_emitter.md R130), EMIT_BYTE
(42_byte_emitter.md R140), SEND_PIXEL (43_pixel_emitter.md R150) and LATCH (44_latch.md R160). A meaning is the
acceptance of the command (30_encoding.md R80): its micro-program becomes pending, and the sequencer's steps then
execute it (40_sequencer.md R101). -/

namespace Sys2Proof.Machine

/-- `Expand(INIT)`: first the direction, then the LOW level (R170). -/
def expandInit : List MicroOp := [.uSETOUT, .uSETLO]

/-- `Expand(EMIT_BIT v)` (R130). -/
def expandEmitBit (c : Config) (v : Bool) : List MicroOp := bitOps c v

/-- `Expand(EMIT_BYTE x)` (R140). -/
def expandEmitByte (c : Config) (x : Byte) : List MicroOp := byteOps c x

/-- `Expand(SEND_PIXEL {g, r, b})` (R150). -/
def expandSendPixel (c : Config) (g r b : Byte) : List MicroOp := pixelOps c (pixelArg g r b)

/-- `Expand(LATCH)` (R160). -/
def expandLatch (c : Config) : List MicroOp := [.uSETLO, .uWAIT (nLatch c)]

/-- INIT (R170): it never raises NOINIT. -/
def execInit (s : State) : Outcome := .next (acceptCommand cfg false expandInit s)

/-- EMIT_BIT (R130): NOINIT while the pin is no output. -/
def execEmitBit (v : Bool) (s : State) : Outcome := .next (acceptCommand cfg true (expandEmitBit cfg v) s)

/-- EMIT_BYTE (R140): NOINIT while the pin is no output. -/
def execEmitByte (x : Byte) (s : State) : Outcome := .next (acceptCommand cfg true (expandEmitByte cfg x) s)

/-- SEND_PIXEL (R150): NOINIT while the pin is no output. -/
def execSendPixel (g r b : Byte) (s : State) : Outcome :=
  .next (acceptCommand cfg true (expandSendPixel cfg g r b) s)

/-- LATCH (R160): NOINIT while the pin is no output. -/
def execLatch (s : State) : Outcome := .next (acceptCommand cfg true (expandLatch cfg) s)

end Sys2Proof.Machine
end

