-- ==== Sys2Proof/Machine/Primitive.lean ====
section
/-! DEFINITION. The primitive commands of the GPIO output sequencer: NOP, PIN_OUTPUT, PIN_HIGH, PIN_LOW, DELAY_US
(40_sequencer.md R110 to R114). A meaning is the acceptance of the command (30_encoding.md R80): its micro-program
becomes pending, and the sequencer's steps then execute it (40_sequencer.md R101). -/

namespace Sys2Proof.Machine

/-- `Expand(NOP)` (R110). -/
def expandNop : List MicroOp := [.uNOP]

/-- `Expand(PIN_OUTPUT)` (R111). -/
def expandPinOutput : List MicroOp := [.uSETOUT]

/-- `Expand(PIN_HIGH)` (R112). -/
def expandPinHigh : List MicroOp := [.uSETHI]

/-- `Expand(PIN_LOW)` (R113). -/
def expandPinLow : List MicroOp := [.uSETLO]

/-- `Expand(DELAY_US u)` (R114). -/
def expandDelayUs (c : Config) (u : Micros) : List MicroOp := [.uWAIT (delayCycles c u)]

/-- NOP (R110): allowed before INIT. -/
def execNop (s : State) : Outcome := .next (acceptCommand cfg false expandNop s)

/-- PIN_OUTPUT (R111): allowed before INIT. -/
def execPinOutput (s : State) : Outcome := .next (acceptCommand cfg false expandPinOutput s)

/-- PIN_HIGH (R112): allowed before INIT. -/
def execPinHigh (s : State) : Outcome := .next (acceptCommand cfg false expandPinHigh s)

/-- PIN_LOW (R113): allowed before INIT. -/
def execPinLow (s : State) : Outcome := .next (acceptCommand cfg false expandPinLow s)

/-- DELAY_US (R114): allowed before INIT. -/
def execDelayUs (u : Micros) (s : State) : Outcome := .next (acceptCommand cfg false (expandDelayUs cfg u) s)

end Sys2Proof.Machine
end

