-- ==== Sys2Proof/Machine/Dispatch.lean ====
section
/-! DEFINITION. The one dispatch: each command to its meaning. -/

namespace Sys2Proof.Machine

def exec (i : Instr) (s : State) : Host.Outcome State Fault Refusal :=
  match i with
  | .nop => Sys2Proof.Machine.execNop s
  | .pinOutput => Sys2Proof.Machine.execPinOutput s
  | .pinHigh => Sys2Proof.Machine.execPinHigh s
  | .pinLow => Sys2Proof.Machine.execPinLow s
  | .delayUs u => Sys2Proof.Machine.execDelayUs u s
  | .init => Sys2Proof.Machine.execInit s
  | .emitBit v => Sys2Proof.Machine.execEmitBit v s
  | .emitByte x => Sys2Proof.Machine.execEmitByte x s
  | .sendPixel g r b => Sys2Proof.Machine.execSendPixel g r b s
  | .latch => Sys2Proof.Machine.execLatch s

end Sys2Proof.Machine
end

