-- ==== Sys2Proof/Machine/Moves.lean ====
section
/-! DEFINITION. What one step does with the next move of the host or the environment (60_exceptions.md R215), and when
the sequencer steps instead. Every function takes the configuration (10_state.md R21: "It is a parameter of every
step"), and those that run a command also take the dispatch `ex`: the machine's own is `exec` over its own
configuration (Step.lean), and `execWith c` is the same dispatch over any configuration `c`. -/

namespace Sys2Proof.Machine

/-- `Expand(w)` of a legal word, by command (30_encoding.md R80). -/
def expand (c : Config) : Instr → List MicroOp
  | .nop => expandNop
  | .pinOutput => expandPinOutput
  | .pinHigh => expandPinHigh
  | .pinLow => expandPinLow
  | .delayUs u => expandDelayUs c u
  | .init => expandInit
  | .emitBit v => expandEmitBit c v
  | .emitByte x => expandEmitByte c x
  | .sendPixel g r b => expandSendPixel c g r b
  | .latch => expandLatch c

/-- The dispatch over any configuration; `exec` is `execWith cfg` (`exec_eq_execWith`, Laws/Moves.lean). -/
def execWith (c : Config) (i : Instr) (s : State) : Outcome :=
  .next (acceptCommand c i.needsInit (expand c i) s)

/-- `Accept(w)` (30_encoding.md R80): while busy the word is dropped undecoded (OVERRUN), an illegal word raises
ILLEGAL, and a legal word is the command it decodes to. -/
def accept (c : Config) (ex : Instr → State → Outcome) (w : Word) (s : State) : Outcome :=
  if s.busy then .next (overrun s)
  else match decode w with
    | .error _ => .next (illegal c s)
    | .ok i => ex i s

/-- The value of a read goes to the host; the block does not change (20_memory.md R55). -/
def returnRead (v : Word) (s : State) : State := { s with hostReads := s.hostReads ++ [v] }

/-- The move must wait while the block is busy, by the host's kind. `Issue`, `Idle` and `SetIE` are enabled only when
the block is not busy, and so is every step of a synchronous host (60_exceptions.md R215). An `IssueBusy`, the
sequencer's turn and a reset never wait. -/
def Move.hostWaits (k : HostKind) : Move → Bool
  | .issue _ => true
  | .issueBusy _ => false
  | .readStatus => k == .sync
  | .regRead _ _ => k == .sync
  | .regWrite _ _ _ => k == .sync
  | .idle _ => true
  | .setIE _ => true
  | .seq _ => false
  | .reset => false
  | .resetAt _ => false

/-- A move that does not wait, from the state whose input list no longer holds it. -/
def applyMove (c : Config) (ex : Instr → State → Outcome) (m : Move) (s : State) : Outcome :=
  match m with
  | .issue w => accept c ex w s
  | .issueBusy w => if s.busy && s.hostKind == .async then accept c ex w s else .fault .issueBusyNotEnabled
  | .readStatus => .next (returnRead (status s) s)
  | .regRead off width =>
    match regRead off width s with
    | some v => .next (returnRead v s)
    | none => .fault (.noAccess off width)
  | .regWrite off width w =>
    match writeTarget off width with
    | some .cmd => accept c ex w s
    | some .status => .next s
    | none => .fault (.noAccess off width)
  | .idle n => .next (advance n s)
  | .setIE b => .next { s with ie := b }
  | .seq st => if seqEnabled st s then .next (seqStep c st s) else .fault .seqNotEnabled
  | .reset => .next (doReset s)
  | .resetAt d => if resetAtEnabled c d s then .next (doResetAt d s) else .fault .resetNotInside

/-- The sequencer steps of its own accord: the block is busy and the next move, if there is one, waits. -/
def sequencerMoves (s : State) : Bool :=
  s.busy &&
    match s.inputs with
    | [] => true
    | m :: _ => m.hostWaits s.hostKind

/-- One step of the machine over the configuration `c` and the dispatch `ex`: the sequencer's, or the next move, or, with no
move left and nothing pending, a stop (60_exceptions.md R220; notes/assumptions/1.md, notes/assumptions/9.md). -/
def stepWith (c : Config) (ex : Instr → State → Outcome) (s : State) : Outcome :=
  if sequencerMoves s then .next (seqStepDrawn c s)
  else match s.inputs with
    | [] => .fault .runEnded
    | m :: rest => applyMove c ex m { s with inputs := rest }

/-- `n` steps over the configuration `c`, stopping at the first stop. At the machine's configuration this is the
host's own `Host.Core.run`. -/
def runWith (c : Config) : Nat → State → Outcome
  | 0, s => .next s
  | n + 1, s =>
    match stepWith c (execWith c) s with
    | .next t => runWith c n t
    | .fault r => .fault r
    | .refused r => .refused r

/-- The micro-operations one after the other with no stall (40_sequencer.md R101 with `S.ie = 0`). -/
def runOps (c : Config) : List MicroOp → State → State
  | [], s => s
  | op :: rest, s => runOps c rest (execMicro c op s)

/-- The state in which the command in flight completes when no stall falls into it (40_sequencer.md R101 with
`S.ie = 0`). That the machine's steps reach it is an obligation (Certificates/Slice0/Obligations.lean). -/
def settle (c : Config) (s : State) : State := { runOps c s.pending s with pending := [] }

/-- Put a command word where the very next step takes it (notes/assumptions/2.md): the host's `Issue`, or, while the
block is busy, an asynchronous host's `IssueBusy`, the one step that writes CMD then (60_exceptions.md R215). -/
def placeWord (w : Word) (s : State) : State :=
  if s.busy then { s with hostKind := .async, inputs := .issueBusy w :: s.inputs }
  else { s with inputs := .issue w :: s.inputs }

end Sys2Proof.Machine
end

