-- ==== Sys2Proof/Machine/Step.lean ====
section
/-! DEFINITION. The machine's step, and where a command is placed so that the next step runs it. -/

namespace Sys2Proof.Machine

/-- One step of the machine: `stepWith` at the machine's configuration and dispatch. -/
def step (s : State) : Host.Outcome State Fault Refusal := stepWith cfg exec s

/-- The state with the opcode table's word as the next word the host writes to CMD (notes/assumptions/2.md). -/
def State.withFetchWord (s : State) (nbits w : Nat) : State := placeWord (tableWord nbits w) s

end Sys2Proof.Machine
end

