-- ==== Sys2Proof/Machine/Assembler.lean ====
section
/-! DEFINITION. The assembler and the disassembler of the command set (30_encoding.md R79, R81): from a line of text to
a line of assembly, from that to command words, and back. What the spec leaves open of the text (blanks, the case of
letters) is in notes/assumptions/16.md. -/

namespace Sys2Proof.Machine

/-- The words of a line (30_encoding.md R79, R81), for a line whose numbers fit. -/
def AsmLine.words : AsmLine → List Word
  | .nop => [encode .nop]
  | .pinOutput => [encode .pinOutput]
  | .pinHigh => [encode .pinHigh]
  | .pinLow => [encode .pinLow]
  | .delayUs u => [encode (.delayUs (BitVec.ofNat 16 u))]
  | .init => [encode .init]
  | .emitBit v => [encode (.emitBit (v == 1))]
  | .emitByte x => [encode (.emitByte (BitVec.ofNat 8 x))]
  | .sendPixel g r b => [encode (.sendPixel (BitVec.ofNat 8 g) (BitVec.ofNat 8 r) (BitVec.ofNat 8 b))]
  | .latch => [encode .latch]
  | .rawWord w => [BitVec.ofNat 32 w]
  | .emitPixel g r b => [encode (.sendPixel (BitVec.ofNat 8 g) (BitVec.ofNat 8 r) (BitVec.ofNat 8 b))]
  | .pixelRgb r g b => [encode (.sendPixel (BitVec.ofNat 8 g) (BitVec.ofNat 8 r) (BitVec.ofNat 8 b))]
  | .pixelOff => [encode (.sendPixel 0 0 0)]
  | .nops n => List.replicate n (encode .nop)

/-- The assembler on one line: a number that does not fit is refused, never truncated (30_encoding.md R79). -/
def assemble (l : AsmLine) : Option (List Word) := if l.wellFormed then some (AsmLine.words l) else none

/-- The line of a legal command (30_encoding.md R79). -/
def lineOf : Instr → AsmLine
  | .nop => .nop
  | .pinOutput => .pinOutput
  | .pinHigh => .pinHigh
  | .pinLow => .pinLow
  | .delayUs u => .delayUs u.toNat
  | .init => .init
  | .emitBit v => .emitBit v.toNat
  | .emitByte x => .emitByte x.toNat
  | .sendPixel g r b => .sendPixel g.toNat r.toNat b.toNat
  | .latch => .latch

/-- The disassembler: the command's line, or `.word` for an illegal word (30_encoding.md R79). -/
def disassemble (w : Word) : AsmLine :=
  match decode w with
  | .ok i => lineOf i
  | .error _ => .rawWord w.toNat

/-- A hexadecimal digit, in capitals. -/
def hexDigit (n : Nat) : Char := "0123456789ABCDEF".toList.getD n '0'

/-- The low `k` hexadecimal digits of a number. -/
def hexDigits : (k : Nat) → (n : Nat) → List Char
  | 0, _ => []
  | k + 1, n => hexDigits k (n / 16) ++ [hexDigit (n % 16)]

/-- The text of a line: pixels in the named form with decimal operands, a raw word as `.word 0xXXXXXXXX`
(30_encoding.md R79). -/
def render : AsmLine → String
  | .nop => "NOP"
  | .pinOutput => "PIN_OUTPUT"
  | .pinHigh => "PIN_HIGH"
  | .pinLow => "PIN_LOW"
  | .delayUs u => "DELAY_US " ++ toString u
  | .init => "INIT"
  | .emitBit v => "EMIT_BIT " ++ toString v
  | .emitByte x => "EMIT_BYTE " ++ toString x
  | .sendPixel g r b => "SEND_PIXEL g=" ++ toString g ++ ", r=" ++ toString r ++ ", b=" ++ toString b
  | .latch => "LATCH"
  | .rawWord w => ".word 0x" ++ String.ofList (hexDigits 8 w)
  | .emitPixel g r b => "EMIT_PIXEL g=" ++ toString g ++ ", r=" ++ toString r ++ ", b=" ++ toString b
  | .pixelRgb r g b => "PIXEL_RGB " ++ toString r ++ ", " ++ toString g ++ ", " ++ toString b
  | .pixelOff => "PIXEL_OFF"
  | .nops n => "NOPS " ++ toString n

/-- A piece of a line: a word, a comma or an equals sign. -/
inductive Token where
  | word (cs : List Char)
  | comma
  | equals
  deriving DecidableEq, Repr

/-- An operand as written. -/
inductive AsmOperand where
  | positional (n : Nat)
  | named (name : List Char) (n : Nat)
  deriving DecidableEq, Repr

/-- The line without its comment: `;` starts one (30_encoding.md R79). -/
def stripComment : List Char → List Char
  | [] => []
  | ch :: rest => if ch = ';' then [] else ch :: stripComment rest

/-- The word read so far, if there is one, before the tokens that follow. -/
def flushWord (acc : List Char) (rest : List Token) : List Token :=
  if acc.isEmpty then rest else .word acc :: rest

/-- The tokens of a line without its comment; `acc` is the word read so far. -/
def tokens : (cs : List Char) → (acc : List Char) → List Token
  | [], acc => flushWord acc []
  | ch :: rest, acc =>
    if ch = ' ' ∨ ch = '\t' then flushWord acc (tokens rest [])
    else if ch = ',' then flushWord acc (.comma :: tokens rest [])
    else if ch = '=' then flushWord acc (.equals :: tokens rest [])
    else tokens rest (acc ++ [ch])

/-- The value of a digit, if it is one in that base. -/
def digitValue (base : Nat) (ch : Char) : Option Nat :=
  let n := ch.toNat
  let v :=
    if 48 ≤ n ∧ n ≤ 57 then n - 48
    else if 65 ≤ n ∧ n ≤ 70 then n - 55
    else if 97 ≤ n ∧ n ≤ 102 then n - 87
    else base
  if v < base then some v else none

/-- The digits after the value read so far. -/
def readDigits (base : Nat) : (cs : List Char) → (acc : Nat) → Option Nat
  | [], acc => some acc
  | ch :: rest, acc =>
    match digitValue base ch with
    | some v => readDigits base rest (base * acc + v)
    | none => none

/-- A number: decimal, `0x` hexadecimal or `0b` binary (30_encoding.md R79). -/
def readNumber : List Char → Option Nat
  | [] => none
  | '0' :: 'x' :: d :: ds => readDigits 16 (d :: ds) 0
  | '0' :: 'b' :: d :: ds => readDigits 2 (d :: ds) 0
  | d :: ds => readDigits 10 (d :: ds) 0

/-- The operands, each after a comma. -/
def operandsAfterComma : List Token → Option (List AsmOperand)
  | [] => some []
  | .comma :: .word k :: .equals :: .word n :: rest => do
    return .named k (← readNumber n) :: (← operandsAfterComma rest)
  | .comma :: .word n :: rest => do
    return .positional (← readNumber n) :: (← operandsAfterComma rest)
  | _ => none

/-- The operands of a line. -/
def readOperands : List Token → Option (List AsmOperand)
  | [] => some []
  | toks => operandsAfterComma (.comma :: toks)

/-- No operand. -/
def takesNone (l : AsmLine) : List AsmOperand → Option AsmLine
  | [] => some l
  | _ => none

/-- One positional operand. -/
def takesOne (f : Nat → AsmLine) : List AsmOperand → Option AsmLine
  | [.positional n] => some (f n)
  | _ => none

/-- Three positional operands. -/
def takesThree (f : Nat → Nat → Nat → AsmLine) : List AsmOperand → Option AsmLine
  | [.positional a, .positional b, .positional c] => some (f a b c)
  | _ => none

/-- The value of a named operand. -/
def operandNamed (name : Char) (ops : List AsmOperand) : Option Nat :=
  ops.findSome? fun
    | .named k n => if k = [name] then some n else none
    | .positional _ => none

/-- The operands of a pixel: in wire order green, red, blue, or three named ones in any order, each once
(30_encoding.md R79). -/
def takesPixel (f : Nat → Nat → Nat → AsmLine) (ops : List AsmOperand) : Option AsmLine :=
  match ops with
  | [.positional g, .positional r, .positional b] => some (f g r b)
  | [.named _ _, .named _ _, .named _ _] => do
    return f (← operandNamed 'g' ops) (← operandNamed 'r' ops) (← operandNamed 'b' ops)
  | _ => none

/-- Every mnemonic, pseudo-instruction and directive with the operands it takes (30_encoding.md R79, R81). -/
def asmTable : List (String × (List AsmOperand → Option AsmLine)) :=
  [ ("NOP", takesNone .nop),
    ("PIN_OUTPUT", takesNone .pinOutput),
    ("PIN_HIGH", takesNone .pinHigh),
    ("PIN_LOW", takesNone .pinLow),
    ("DELAY_US", takesOne .delayUs),
    ("INIT", takesNone .init),
    ("EMIT_BIT", takesOne .emitBit),
    ("EMIT_BYTE", takesOne .emitByte),
    ("SEND_PIXEL", takesPixel .sendPixel),
    ("LATCH", takesNone .latch),
    (".word", takesOne .rawWord),
    ("EMIT_PIXEL", takesPixel .emitPixel),
    ("PIXEL_RGB", takesThree .pixelRgb),
    ("PIXEL_OFF", takesNone .pixelOff),
    ("NOPS", takesOne .nops) ]

/-- The operands the mnemonic takes, if it is one. -/
def asmRow (m : List Char) : Option (List AsmOperand → Option AsmLine) :=
  (asmTable.find? fun row => row.1.toList == m).map Prod.snd

/-- The line of a list of tokens: a mnemonic and its operands; `some none` where there is no token. -/
def lineOfTokens : List Token → Option (Option AsmLine)
  | [] => some none
  | .word m :: toks => do
    let ops ← readOperands toks
    let row ← asmRow m
    return some (← row ops)
  | _ => none

/-- A line of text: nothing where it is no line of assembly, `some none` where it holds no command. -/
def parseLine (text : List Char) : Option (Option AsmLine) := lineOfTokens (tokens (stripComment text) [])

/-- The words of a text, a line at a time; nothing where a line is refused. -/
def assembleText : List (List Char) → Option (List Word)
  | [] => some []
  | line :: rest => do
    let ws ← match ← parseLine line with
      | none => some []
      | some l => assemble l
    return ws ++ (← assembleText rest)

end Sys2Proof.Machine
end

