-- ==== Sys2Proof/Machine/Waveform.lean ====
section
/-! DEFINITION. The lengths the rules give the phases of the waveform and the commands, in cycles with `S.ie = 0`
(46_waveform.md R180 to R184, 70_reset_and_hazards.md R259), the pin events they amount to, and the calibration
constraints (46_waveform.md R185). The machine does not use them: claims compare it with them. -/

namespace Sys2Proof.Machine

/-- `TH(v) = N_H(v) + C_PIN` (46_waveform.md R180). -/
def highTime (c : Config) (v : Bool) : Nat := nH c v + c.cPin

/-- `TL(v) = N_L(v) + C_BITOVH + C_PIN`: the LOW between two bits of a byte (46_waveform.md R181). -/
def lowTime (c : Config) (v : Bool) : Nat := nL c v + c.cBitOvh + c.cPin

/-- `P(v) = C_BITOVH + 2*C_PIN + N_H(v) + N_L(v)`: the bit period inside a byte (46_waveform.md R182). -/
def period (c : Config) (v : Bool) : Nat := c.cBitOvh + 2 * c.cPin + nH c v + nL c v

/-- `P(v) + C_BYTEOVH`: the period of the last bit of a green or red byte (46_waveform.md R183). -/
def periodAtByteEnd (c : Config) (v : Bool) : Nat := period c v + c.cByteOvh

/-- The sum of the periods of a list of bits. -/
def periodSum (c : Config) (bits : List Bool) : Nat := (bits.map (period c)).sum

/-- The term `X` of 46_waveform.md R184: what stands between the dispatch wait of the second command and its first
`uSETHI`. Only the three emission commands have one. -/
def leadIn (c : Config) : Instr → Option Nat
  | .emitBit _ => some 0
  | .emitByte _ => some c.cBitOvh
  | .sendPixel _ _ _ => some (c.cByteOvh + c.cBitOvh)
  | .nop | .pinOutput | .pinHigh | .pinLow | .delayUs _ | .init | .latch => none

/-- The value of the last bit a command sends: the `v` of 46_waveform.md R184, whose first command is an emission
command. `x[0]` goes last of a byte (20_memory.md R57), `b[0]` last of a pixel (R59). -/
def lastBit : Instr → Option Bool
  | .emitBit v => some v
  | .emitByte x => some (x.getLsbD 0)
  | .sendPixel _ _ b => some (b.getLsbD 0)
  | .nop | .pinOutput | .pinHigh | .pinLow | .delayUs _ | .init | .latch => none

/-- The LOW between two commands: the first ends with bit `v`, the host gap is `gap`, and `x` is the second's lead-in
(46_waveform.md R184). -/
def lowBetween (c : Config) (v : Bool) (gap x : Nat) : Nat := nL c v + gap + c.cCmd + x + c.cPin

/-- The duration of a command from acceptance to completion, not faulted, with `S.ie = 0` (70_reset_and_hazards.md
R259). -/
def duration (c : Config) : Instr → Nat
  | .nop => c.cCmd + 1
  | .pinOutput => c.cCmd + c.cPin
  | .pinHigh => c.cCmd + c.cPin
  | .pinLow => c.cCmd + c.cPin
  | .delayUs u => c.cCmd + c.usToCyc u.toNat
  | .init => c.cCmd + 2 * c.cPin
  | .emitBit v => c.cCmd + 2 * c.cPin + nH c v + nL c v
  | .emitByte x => c.cCmd + periodSum c (byteBits x)
  | .sendPixel g r b => c.cCmd + 3 * c.cByteOvh + periodSum c (pixelBits (pixelArg g r b))
  | .latch => c.cCmd + c.cPin + nLatch c

/-- The two events of `Bit(v)` started at `t` with the pin LOW (41_bit_emitter.md R132). -/
def bitEvents (c : Config) (t : Nat) (v : Bool) : List (Nat × Pin) :=
  [(t + c.cPin, .H), (t + c.cPin + highTime c v, .L)]

/-- The events of the bits of a byte whose first loop overhead starts at `t` (46_waveform.md R182). -/
def bitsEvents (c : Config) : (t : Nat) → List Bool → List (Nat × Pin)
  | _, [] => []
  | t, v :: vs => bitEvents c (t + c.cBitOvh) v ++ bitsEvents c (t + period c v) vs

/-- The events of a pixel's bytes, the first byte's bookkeeping starting at `t` (46_waveform.md R183). -/
def bytesEvents (c : Config) : (t : Nat) → List Byte → List (Nat × Pin)
  | _, [] => []
  | t, x :: xs =>
    bitsEvents c (t + c.cByteOvh) (byteBits x) ++
      bytesEvents c (t + c.cByteOvh + periodSum c (byteBits x)) xs

/-- `n` cycles in nanoseconds (00_scope.md R7). -/
def ns (c : Config) (n : Nat) : ℚ := n * 1000000000 / c.fCpu

/-- The calibration constraints CAL1 to CAL7 (46_waveform.md R185). A predicate, never a check: "The block never
checks it and never reports it" (R186). -/
structure Compliant (c : Config) : Prop where
  cal1 : highTime c false < highTime c true
  cal2_lo : c.ratioLo ≤ (highTime c true : ℚ) / highTime c false
  cal2_hi : (highTime c true : ℚ) / highTime c false ≤ c.ratioHi
  cal3_zero : |ns c (highTime c false) - c.t0hNs| ≤ c.tolHNs
  cal3_one : |ns c (highTime c true) - c.t1hNs| ≤ c.tolHNs
  cal4_bit : ∀ v, |ns c (period c v) - c.tBitNs| ≤ c.tolPNs
  cal4_byteEnd : ∀ v, |ns c (periodAtByteEnd c v) - c.tBitNs| ≤ c.tolPNs
  cal5 : c.tResetCyc ≤ nLatch c
  cal6_zero : highTime c false ≤ c.sSample
  cal6_one : c.sSample < highTime c true
  cal7 : ∀ v, lowTime c v + c.cByteOvh ≤ c.tIdleMax

/-- The host gap bound between two SEND_PIXEL commands of one frame (46_waveform.md R196). -/
def gapAllowed (c : Config) (gap : Nat) : Prop :=
  max c.nL0 c.nL1 + gap + c.cCmd + c.cByteOvh + c.cBitOvh + c.cPin ≤ c.tIdleMax

end Sys2Proof.Machine
end

