-- ==== Sys2Proof/Machine/Receiver.lean ====
section
/-! DEFINITION. The reference receiver: the observation of a trace (46_waveform.md R190 to R195). It never changes the
block. Where the spec admits two readings of a LOW (R193), the reading of each gap is an argument: a claim holds under
every choice of it (notes/assumptions/11.md). -/

namespace Sys2Proof.Machine

/-- A HIGH pulse: its rising and its falling edge (46_waveform.md R191). -/
structure Pulse where
  rise : Nat
  fall : Nat
  deriving DecidableEq, Repr

/-- A decoded frame (46_waveform.md R190). -/
structure Frame where
  bits : List Bool
  latched : Bool
  deriving DecidableEq, Repr

/-- A pixel as read off the wire (46_waveform.md R194). -/
structure Pixel where
  g : Byte
  r : Byte
  b : Byte
  deriving DecidableEq, Repr

/-- The level at the instant `t`: the value of the last event with time `<= t` (46_waveform.md R191). -/
def levelAt (trace : List (Nat × Pin)) (t : Nat) : Option Pin :=
  (trace.filter fun e => decide (e.1 ≤ t)).getLast?.map Prod.snd

/-- The events of the window `[t0, tEnd]` (46_waveform.md R190). -/
def windowEvents (trace : List (Nat × Pin)) (t0 tEnd : Nat) : List (Nat × Pin) :=
  trace.filter fun e => decide (t0 ≤ e.1) && decide (e.1 ≤ tEnd)

/-- The pulses: each rising edge with the falling edge that is the next event. A HIGH that has not fallen gives none
(46_waveform.md R191). -/
def pulses : List (Nat × Pin) → List Pulse
  | [] => []
  | [_] => []
  | (r, p) :: (f, q) :: rest =>
    if p = .H ∧ q = .L then ⟨r, f⟩ :: pulses rest else pulses ((f, q) :: rest)

/-- `bit_k`: 1 exactly when the fall comes after the sample instant (46_waveform.md R191). -/
def bitOf (c : Config) (p : Pulse) : Bool := decide (p.rise + c.sSample < p.fall)

/-- The LOW of `gap` cycles ends the frame; `band` is the reading where both are admitted (46_waveform.md R192,
R193). -/
def gapEndsFrame (c : Config) (band : Bool) (gap : Nat) : Bool :=
  if c.tResetCyc ≤ gap then true
  else if gap ≤ c.tIdleMax then false
  else band

/-- The frames of a list of pulses. `k` numbers the pulses, `bits` are those of the frame so far, `band k` is the
reading of the gap after pulse `k`, and `lowEnd` is where the LOW after the last pulse ends within the window. -/
def framesFrom (c : Config) (band : Nat → Bool) (lowEnd : Nat) : (k : Nat) → (bits : List Bool) → List Pulse → List Frame
  | _, _, [] => []
  | _, bits, [p] => [⟨bits ++ [bitOf c p], decide (p.fall + c.tResetCyc ≤ lowEnd)⟩]
  | k, bits, p :: q :: rest =>
    if gapEndsFrame c (band k) (q.rise - p.fall) then
      ⟨bits ++ [bitOf c p], true⟩ :: framesFrom c band lowEnd (k + 1) [] (q :: rest)
    else framesFrom c band lowEnd (k + 1) (bits ++ [bitOf c p]) (q :: rest)

/-- Where the LOW after the window's last falling edge ends: at a rise that has not fallen by `tEnd`, else at `tEnd`
(46_waveform.md R192). -/
def lowEndOf (events : List (Nat × Pin)) (tEnd : Nat) : Nat :=
  match events.getLast? with
  | some (r, .H) => r
  | _ => tEnd

/-- `Decode` is defined on the window: it starts at L and no event in it is Z (46_waveform.md R190). -/
def decodable (trace : List (Nat × Pin)) (t0 tEnd : Nat) : Bool :=
  levelAt trace t0 == some .L && (windowEvents trace t0 tEnd).all fun e => e.2 != .Z

/-- `Decode(trace, t0, t_end)`, or nothing where the model refuses to decode (46_waveform.md R190). -/
def decodeTrace (c : Config) (band : Nat → Bool) (trace : List (Nat × Pin)) (t0 tEnd : Nat) : Option (List Frame) :=
  if decodable trace t0 tEnd then
    let events := windowEvents trace t0 tEnd
    some (framesFrom c band (lowEndOf events tEnd) 0 [] (pulses events))
  else none

/-- Eight bits, the most significant first, as a byte. -/
def byteOfBits (bits : List Bool) : Byte := BitVec.ofNat 8 (bits.foldl (fun n b => 2 * n + b.toNat) 0)

/-- The first `n` pixels of 24 bits each, and the bits after them (46_waveform.md R194). -/
def pixelsAndRest : (n : Nat) → List Bool → List Pixel × List Bool
  | 0, bits => ([], bits)
  | n + 1, bits =>
    let px : Pixel :=
      ⟨byteOfBits (bits.take 8), byteOfBits ((bits.drop 8).take 8), byteOfBits ((bits.drop 16).take 8)⟩
    let rest := pixelsAndRest n (bits.drop 24)
    (px :: rest.1, rest.2)

/-- The whole pixels of a frame, and the remainder of an incomplete one (46_waveform.md R194). -/
def Frame.pixels (f : Frame) : List Pixel × List Bool := pixelsAndRest (f.bits.length / 24) f.bits

/-- What the observation applies to the one LED: the first pixel of a latched frame (46_waveform.md R195). -/
def Frame.applied (f : Frame) : Option Pixel := if f.latched then f.pixels.1.head? else none

end Sys2Proof.Machine
end

