-- ==== Sys2Proof/Machine/Run.lean ====
section
/-! DEFINITION. The end of a run and its observation (60_exceptions.md R220; notes/assumptions/9.md). -/

namespace Sys2Proof.Machine

/-- The move is a step of the host's program (60_exceptions.md R215; 20_memory.md R55, R56). The other moves are the
sequencer's turn and the environment's resets (00_scope.md R17). -/
def Move.isHost : Move → Bool
  | .issue _ => true
  | .issueBusy _ => true
  | .readStatus => true
  | .regRead _ _ => true
  | .regWrite _ _ _ => true
  | .idle _ => true
  | .setIE _ => true
  | .seq _ => false
  | .reset => false
  | .resetAt _ => false

/-- The host has no further step in its program, whatever the environment still does (60_exceptions.md R220). -/
def State.hostDone (s : State) : Bool := s.inputs.all fun m => !m.isHost

/-- A run ends here, if it has not ended before: the host has no further step and the block is not busy (R220). -/
def State.runEnds (s : State) : Bool := s.hostDone && !s.busy

/-- No fault bit is set (60_exceptions.md R201). -/
def State.faultFree (s : State) : Bool := !s.fIllegal && !s.fNoinit && !s.fOverrun

/-- A run that ends here ends well: no fault bit is set either (R220). -/
def State.endsWell (s : State) : Bool := s.runEnds && s.faultFree

/-- The observation of a run that ends here: the trace and STATUS (R220). -/
def State.observation (s : State) : List (Nat × Pin) × Word := (s.trace, status s)

/-- Where a run from the state ends: the FIRST state at which both conditions of R220 hold, if `n` steps reach one. What
the environment does after it (a reset) is no part of the run. -/
def runEnd (c : Config) : Nat → State → Option State
  | 0, s => if s.runEnds then some s else none
  | n + 1, s =>
    if s.runEnds then some s
    else match stepWith c (execWith c) s with
      | .next t => runEnd c n t
      | .fault _ => none
      | .refused _ => none

end Sys2Proof.Machine
end

