-- ==== Sys2Proof/Safety.lean ====
section
/-! DEFINITION. What claims are stated in: the invariant of the trace (10_state.md R32), the synchronous host's programs
(60_exceptions.md R215), and the premises of the end-to-end property (46_waveform.md R196). -/

namespace Sys2Proof.Machine

/-- The times of a trace never decrease (10_state.md R32). -/
def TimesOrdered (trace : List (Nat × Pin)) : Prop := trace.Pairwise fun e f => e.1 ≤ f.1

/-- No two consecutive events have the same value (10_state.md R32). -/
def ValuesChange : List (Nat × Pin) → Prop
  | [] => True
  | [_] => True
  | e :: f :: rest => e.2 ≠ f.2 ∧ ValuesChange (f :: rest)

/-- The trace is as 10_state.md R32 says: it begins with (0, Z), its times never decrease and lie in the past, no two
consecutive events have the same value, and the last event's value is the effective pin value. -/
structure State.TraceOk (s : State) : Prop where
  begins : s.trace.head? = some (0, .Z)
  ordered : TimesOrdered s.trace
  past : ∀ e ∈ s.trace, e.1 ≤ s.cyc
  changes : ValuesChange s.trace
  shows : s.lastPin = some s.eff

/-- The moves of a synchronous host and of the environment: every move but `IssueBusy` (60_exceptions.md R215). -/
def Move.synchronous : Move → Bool
  | .issueBusy _ => false
  | .issue _ | .readStatus | .regRead _ _ | .regWrite _ _ _ | .idle _ | .setIE _ | .seq _ | .reset | .resetAt _ => true

/-- A synchronous host drives the block, and everything still to come is a move it may make. -/
def State.SyncDriven (s : State) : Prop := s.hostKind = .sync ∧ ∀ m ∈ s.inputs, m.synchronous = true

/-- The move about to be made is a reset (70_reset_and_hazards.md R240, R241). -/
def State.resetNext (s : State) : Bool :=
  match s.inputs with
  | .reset :: _ => true
  | .resetAt _ :: _ => true
  | _ => false

/-- The sequencer makes the next step: of its own accord, or on an explicit turn (40_sequencer.md R101). -/
def State.sequencerNext (s : State) : Bool :=
  sequencerMoves s ||
    match s.inputs with
    | .seq _ :: _ => true
    | _ => false

/-- Nothing but the sequencer moves while the block is busy: the input list is empty or its head waits. -/
def State.undisturbed (s : State) : Bool :=
  match s.inputs with
  | [] => true
  | m :: _ => m.hostWaits s.hostKind

/-- Ready for a frame: not busy, output, LOW, interrupts disabled, the trace as it should be, and no event at the
present instant but LOW ones (46_waveform.md R196: "INIT has completed at `t0`, so the pin is `L` from `t0` on"). -/
structure State.ReadyToSend (s : State) : Prop where
  idle : s.pending = []
  output : s.dir = .OUT
  low : s.level = false
  noInterrupts : s.ie = false
  traceOk : s.TraceOk
  lowNow : ∀ e ∈ s.trace, s.cyc ≤ e.1 → e.2 = .L

/-- The host's moves of one frame (46_waveform.md R196): each pixel's SEND_PIXEL after its gap, then a last gap and
LATCH. A gap of 0 is an `Idle(0)`. -/
def frameMoves (px : List (Nat × Arg)) (lastGap : Nat) : List Move :=
  px.flatMap (fun p => [.idle p.1, .issue (packWord 0x8 p.2)]) ++ [.idle lastGap, .issue (encode .latch)]

/-- The bits of a frame: `a_1[23..0] ++ ... ++ a_n[23..0]` (46_waveform.md R196). -/
def frameBits (px : List (Nat × Arg)) : List Bool := px.flatMap fun p => pixelBits p.2

/-- The pixels of a frame (46_waveform.md R196). -/
def framePixels (px : List (Nat × Arg)) : List Pixel :=
  px.map fun p => ⟨p.2.extractLsb' 16 8, p.2.extractLsb' 8 8, p.2.extractLsb' 0 8⟩

end Sys2Proof.Machine
end

