-- ==== Sys2Proof/Certificates/Slice0/Obligations.lean ====
section
/-! DEFINITION. The statements for the provers: what the numbered rules of spec/ say the block does. `cfg` is the
machine's own configuration, admitted and otherwise free, so that a statement about `exec` or `step` holds for every
admitted configuration. A statement about the waveform that needs a compliant one is about every configuration `c`. -/

open Sys2Proof Sys2Proof.Machine

/-! ## Encoding -/

/-- Decoding the word of a command gives the command back, with every operand at every value (30_encoding.md R70 to
R75, R79). -/
def Obligations.DecodeOfEncodeIsTheCommand : Prop :=
  ∀ i : Instr, decode (encode i) = .ok i

/-- A legal word is the word of the command it decodes to, and the decoder accepts exactly the legal words
(30_encoding.md R71, R72, R76). -/
def Obligations.DecoderAcceptsExactlyTheLegalWords : Prop :=
  ∀ w : Word,
    (∀ i, decode w = .ok i → encode i = w) ∧ ((∃ i, decode w = .ok i) ↔ Legal w = true)

/-- 30_encoding.md R76: `Legal(w)` by fields, and by the (match, mask) rows, of which no two match the same word. -/
def Obligations.LegalIffOneMaskRowMatches : Prop :=
  ∀ w : Word,
    (Legal w = true ↔
      rsvField w = 0 ∧
        (opField w ∈ [0x0#4, 0x1#4, 0x2#4, 0x3#4, 0x5#4, 0x9#4] ∧ argField w = 0 ∨
         opField w = 0x4#4 ∧ (argField w).extractLsb' 16 8 = 0 ∨
         opField w = 0x6#4 ∧ (argField w).extractLsb' 1 23 = 0 ∨
         opField w = 0x7#4 ∧ (argField w).extractLsb' 8 16 = 0 ∨
         opField w = 0x8#4)) ∧
    (Legal w = true ↔ ∃ row ∈ maskRows, w &&& row.mask = row.pattern) ∧
    (∀ row ∈ maskRows, ∀ row' ∈ maskRows,
      w &&& row.mask = row.pattern → w &&& row'.mask = row'.pattern → row = row')

/-- 30_encoding.md R77: each class of illegal word is refused by its name, and none decodes to a command. -/
def Obligations.IllegalWordsAreRefusedByName : Prop :=
  ∀ w : Word,
    (9 < (opField w).toNat → decode w = .error .reservedOpcode) ∧
    ((opField w).toNat ≤ 9 → rsvField w ≠ 0 → decode w = .error .reservedField) ∧
    ((opField w).toNat ≤ 9 → rsvField w = 0 → Legal w = false → decode w = .error .argumentField)

/-- Words written out from the table of 30_encoding.md R72 decode to the commands they stand for. -/
def Obligations.TableWordsDecode : Prop :=
  decode 0x00000000 = .ok .nop ∧
  decode 0x10000000 = .ok .pinOutput ∧
  decode 0x4000FFFF = .ok (.delayUs 65535) ∧
  decode 0x50000000 = .ok .init ∧
  decode 0x60000001 = .ok (.emitBit true) ∧
  decode 0x700000B0 = .ok (.emitByte 0xB0) ∧
  decode 0x80140A1E = .ok (.sendPixel 20 10 30) ∧
  decode 0x90000000 = .ok .latch

/-- The words of the assembler's lines as 30_encoding.md R79 writes them, and a number that does not fit is refused. -/
def Obligations.AssemblerEncodesAsTheTableSays : Prop :=
  assemble .nop = some [0x00000000] ∧
  assemble .pinOutput = some [0x10000000] ∧
  assemble .pinHigh = some [0x20000000] ∧
  assemble .pinLow = some [0x30000000] ∧
  assemble .init = some [0x50000000] ∧
  assemble .latch = some [0x90000000] ∧
  (∀ u, assemble (.delayUs u) =
    if u < 65536 then some [0x40000000 ||| BitVec.ofNat 32 u] else none) ∧
  (∀ v, assemble (.emitBit v) = if v < 2 then some [0x60000000 ||| BitVec.ofNat 32 v] else none) ∧
  (∀ x, assemble (.emitByte x) = if x < 256 then some [0x70000000 ||| BitVec.ofNat 32 x] else none) ∧
  (∀ g r b, assemble (.sendPixel g r b) =
    if g < 256 ∧ r < 256 ∧ b < 256 then
      some [0x80000000 ||| (BitVec.ofNat 32 g <<< 16) ||| (BitVec.ofNat 32 r <<< 8) ||| BitVec.ofNat 32 b]
    else none) ∧
  (∀ w, assemble (.rawWord w) = if w < 2 ^ 32 then some [BitVec.ofNat 32 w] else none)

/-- Disassembling any word, legal or not, and assembling the line gives the word back, as a line and as the text the
disassembler prints (30_encoding.md R79). -/
def Obligations.AssembleOfDisassembleIsTheWord : Prop :=
  ∀ w : Word, assemble (disassemble w) = some [w] ∧ assembleText [(render (disassemble w)).toList] = some [w]

/-- The pseudo-instructions expand as 30_encoding.md R81 says, whether or not their numbers fit. -/
def Obligations.PseudoInstructionsExpand : Prop :=
  (∀ g r b, assemble (.emitPixel g r b) = assemble (.sendPixel g r b)) ∧
  (∀ r g b, assemble (.pixelRgb r g b) = assemble (.sendPixel g r b)) ∧
  assemble .pixelOff = some [0x80000000] ∧
  (∀ n, assemble (.nops n) = some (List.replicate n 0x00000000))

/-! ## Reset -/

/-- 70_reset_and_hazards.md R240: the power-on state, and what `Reset()` leaves at any time. -/
def Obligations.ResetLeavesTheStatedValues : Prop :=
  (State.reset.dir = .IN ∧ State.reset.level = false ∧ State.reset.fIllegal = false ∧
    State.reset.fNoinit = false ∧ State.reset.fOverrun = false ∧ State.reset.pending = [] ∧
    State.reset.ie = false ∧ State.reset.cyc = 0 ∧ State.reset.trace = [(0, .Z)] ∧
    status State.reset = 0) ∧
  (∀ s rest, s.inputs = .reset :: rest →
    ∃ t, step s = .next t ∧
      t.dir = .IN ∧ t.level = false ∧ t.fIllegal = false ∧ t.fNoinit = false ∧ t.fOverrun = false ∧
      t.pending = [] ∧ t.ie = false ∧ t.cyc = s.cyc ∧ status t = 0 ∧
      t.trace = (if s.lastPin = some .Z then s.trace else s.trace ++ [(s.cyc, .Z)]) ∧
      t.inputs = rest)

/-- 70_reset_and_hazards.md R241: `ResetAt(d)` is enabled exactly inside the head micro-operation (or with `d = 0`
when idle), lets `d` cycles elapse, gives the head micro-operation no effect, and loses the rest of the command. -/
def Obligations.ResetInsideAMicroOpCutsItShort : Prop :=
  ∀ s d rest, s.inputs = .resetAt d :: rest →
    let inside := (s.pending = [] ∧ d = 0) ∨ (∃ op ops, s.pending = op :: ops ∧ d < op.cost cfg)
    (inside →
      ∃ t, step s = .next t ∧ t.dir = .IN ∧ t.level = false ∧ t.fIllegal = false ∧ t.fNoinit = false ∧
        t.fOverrun = false ∧ t.pending = [] ∧ t.ie = false ∧ t.cyc = s.cyc + d ∧
        t.trace = (if s.lastPin = some .Z then s.trace else s.trace ++ [(s.cyc + d, .Z)])) ∧
    (¬ inside → step s = .fault .resetNotInside)

/-! ## STATUS and the register window -/

/-- 10_state.md R36: the bits of STATUS, the reserved ones reading 0; a read has no side effect on the block, and a
write is ignored. -/
def Obligations.StatusBitsAreAsTabled : Prop :=
  ∀ s : State,
    (status s).getLsbD 0 = decide (s.pending ≠ []) ∧
    (status s).getLsbD 1 = decide (s.dir = .OUT) ∧
    (status s).getLsbD 2 = s.level ∧
    (∀ k, 3 ≤ k → k ≤ 7 → (status s).getLsbD k = false) ∧
    (status s).getLsbD 8 = s.fIllegal ∧
    (status s).getLsbD 9 = s.fNoinit ∧
    (status s).getLsbD 10 = s.fOverrun ∧
    (∀ k, 11 ≤ k → k ≤ 31 → (status s).getLsbD k = false) ∧
    status State.reset = 0 ∧
    (∀ rest, s.inputs = .readStatus :: rest → s.pending = [] ∨ s.hostKind = .async →
      step s = .next { s with inputs := rest, hostReads := s.hostReads ++ [status s] }) ∧
    (∀ w rest, s.inputs = .regWrite 4 4 w :: rest → s.pending = [] ∨ s.hostKind = .async →
      step s = .next { s with inputs := rest })

/-- 20_memory.md R55 and R52: a 32-bit read of CMD gives 0, one of STATUS the status word, no state of the block
changes, and any other read has no step. -/
def Obligations.HostReadsOfTheWindow : Prop :=
  ∀ s off width rest, s.inputs = .regRead off width :: rest → s.pending = [] ∨ s.hostKind = .async →
    step s =
      if width = 4 ∧ off = 0 then .next { s with inputs := rest, hostReads := s.hostReads ++ [0] }
      else if width = 4 ∧ off = 4 then .next { s with inputs := rest, hostReads := s.hostReads ++ [status s] }
      else .fault (.noAccess off width)

/-- 20_memory.md R56 and R52: a 32-bit write of CMD accepts the word, one of STATUS does nothing, and any other write
has no step; a write takes no time. -/
def Obligations.HostWritesOfTheWindow : Prop :=
  ∀ s off width w rest, s.inputs = .regWrite off width w :: rest → s.pending = [] ∨ s.hostKind = .async →
    step s =
        (if width = 4 ∧ off = 0 then accept cfg exec w { s with inputs := rest }
         else if width = 4 ∧ off = 4 then .next { s with inputs := rest }
         else .fault (.noAccess off width)) ∧
      ∀ t, step s = .next t → t.cyc = s.cyc

/-! ## Acceptance -/

/-- When the word the host issues decodes to a command, the step is exec of it on the state without that move: for
`Issue` when not busy, for `IssueBusy` of an asynchronous host when busy, and for a placed word always
(30_encoding.md R80; notes/assumptions/2.md). -/
def Obligations.StepRunsTheDecodedCommand : Prop :=
  ∀ s w i, decode w = .ok i →
    (∀ rest, s.inputs = .issue w :: rest → s.pending = [] → step s = exec i { s with inputs := rest }) ∧
    (∀ rest, s.inputs = .issueBusy w :: rest → s.pending ≠ [] → s.hostKind = .async →
      step s = exec i { s with inputs := rest }) ∧
    (∀ n, tableWord 32 n = w →
      step (s.withFetchWord 32 n) =
        exec i (if s.pending = [] then s else { s with hostKind := .async }))

/-- 60_exceptions.md R202: an illegal word written while not busy sets the ILLEGAL bit, leaves only the dispatch wait
pending, changes neither the pin nor the trace, and the block is idle again `C_CMD` cycles later; and which words are
illegal. -/
def Obligations.IllegalWordSetsIllegal : Prop :=
  (∀ s w rest, s.inputs = .issue w :: rest → s.pending = [] → Legal w = false →
    let t := { s with inputs := rest, fIllegal := true, pending := [.uWAIT cfg.cCmd] }
    step s = .next t ∧
      settle cfg t = { s with inputs := rest, fIllegal := true, cyc := s.cyc + cfg.cCmd }) ∧
  (∀ w : Word,
    (opField w ∈ [0xA#4, 0xB#4, 0xC#4, 0xD#4, 0xE#4, 0xF#4] ∨ rsvField w ≠ 0 ∨
      (opField w ∈ [0x0#4, 0x1#4, 0x2#4, 0x3#4, 0x5#4, 0x9#4] ∧ argField w ≠ 0) ∨
      (opField w = 0x4#4 ∧ (argField w).extractLsb' 16 8 ≠ 0) ∨
      (opField w = 0x6#4 ∧ (argField w).extractLsb' 1 23 ≠ 0) ∨
      (opField w = 0x7#4 ∧ (argField w).extractLsb' 8 16 ≠ 0)) → Legal w = false)

/-- 60_exceptions.md R203: EMIT_BIT, EMIT_BYTE, SEND_PIXEL and LATCH before INIT set the NOINIT bit, leave only the
dispatch wait pending, and change neither the pin nor the trace; the other six commands never raise NOINIT. -/
def Obligations.EmissionBeforeInitSetsNoinit : Prop :=
  (∀ s i, s.pending = [] → s.dir = .IN →
    ((∃ v, i = .emitBit v) ∨ (∃ x, i = .emitByte x) ∨ (∃ g r b, i = .sendPixel g r b) ∨ i = .latch) →
    let t := { s with fNoinit := true, pending := [.uWAIT cfg.cCmd] }
    exec i s = .next t ∧ settle cfg t = { s with fNoinit := true, cyc := s.cyc + cfg.cCmd }) ∧
  (∀ s i t, exec i s = .next t →
    (i = .nop ∨ i = .pinOutput ∨ i = .pinHigh ∨ i = .pinLow ∨ (∃ u, i = .delayUs u) ∨ i = .init) →
    t.fNoinit = s.fNoinit)

/-- 60_exceptions.md R204: any word written to CMD while busy, legal or not, sets the OVERRUN bit and is dropped;
the pending micro-operations, the pin and the time are unchanged. -/
def Obligations.WriteWhileBusySetsOverrunOnly : Prop :=
  ∀ s w rest, s.pending ≠ [] → s.hostKind = .async →
    (s.inputs = .issueBusy w :: rest ∨ s.inputs = .regWrite 0 4 w :: rest) →
    step s = .next { s with inputs := rest, fOverrun := true }

/-- 60_exceptions.md R206: one write raises at most one fault, OVERRUN before ILLEGAL before NOINIT. -/
def Obligations.OneWriteRaisesAtMostOneFault : Prop :=
  ∀ s w rest t, s.inputs = .regWrite 0 4 w :: rest → s.pending = [] ∨ s.hostKind = .async → step s = .next t →
    (s.pending ≠ [] → t.fOverrun = true ∧ t.fIllegal = s.fIllegal ∧ t.fNoinit = s.fNoinit) ∧
    (s.pending = [] → Legal w = false →
      t.fOverrun = s.fOverrun ∧ t.fIllegal = true ∧ t.fNoinit = s.fNoinit) ∧
    (s.pending = [] → Legal w = true →
      t.fOverrun = s.fOverrun ∧ t.fIllegal = s.fIllegal ∧
        t.fNoinit = (s.fNoinit || (s.dir == .IN && decide (6 ≤ (opField w).toNat))))

/-! ## The ten commands

Each statement gives the word of the command, the state exec answers (the command accepted, 30_encoding.md R80), and
the state in which the command completes with `S.ie = 0` in any admitted configuration, and says where the form is
turned away. `lastPin = eff` is the invariant `TraceOk.shows` (`TraceInvariantKeptByEveryStep`). -/

/-- 40_sequencer.md R110. -/
def Obligations.NopRunsAndOnlySpendsTime : Prop :=
  encode .nop = 0x00000000 ∧
  (∀ s : State, s.pending = [] → exec .nop s = .next { s with pending := [.uWAIT cfg.cCmd, .uNOP] }) ∧
  (∀ (c : Config) (s : State), c.Admitted → s.pending = [] →
    settle c { s with pending := [.uWAIT c.cCmd, .uNOP] } = { s with cyc := s.cyc + c.cCmd + 1 }) ∧
  (∀ s : State, s.pending ≠ [] → exec .nop s = .next { s with fOverrun := true }) ∧
  (∀ w : Word, opField w = 0x0#4 → w ≠ 0x00000000 → Legal w = false)

/-- 40_sequencer.md R111 and R105. -/
def Obligations.PinOutputDrivesThePin : Prop :=
  encode .pinOutput = 0x10000000 ∧
  (∀ s : State, s.pending = [] →
    exec .pinOutput s = .next { s with pending := [.uWAIT cfg.cCmd, .uSETOUT] }) ∧
  (∀ (c : Config) (s : State), c.Admitted → s.pending = [] → s.lastPin = some s.eff →
    settle c { s with pending := [.uWAIT c.cCmd, .uSETOUT] } =
      { s with
        dir := .OUT
        cyc := s.cyc + c.cCmd + c.cPin
        trace := if s.dir = .OUT then s.trace
                 else s.trace ++ [(s.cyc + c.cCmd + c.cPin, if s.level then .H else .L)] }) ∧
  (∀ s : State, s.pending ≠ [] → exec .pinOutput s = .next { s with fOverrun := true }) ∧
  (∀ w : Word, opField w = 0x1#4 → w ≠ 0x10000000 → Legal w = false)

/-- 40_sequencer.md R112. -/
def Obligations.PinHighRaisesTheLatch : Prop :=
  encode .pinHigh = 0x20000000 ∧
  (∀ s : State, s.pending = [] →
    exec .pinHigh s = .next { s with pending := [.uWAIT cfg.cCmd, .uSETHI] }) ∧
  (∀ (c : Config) (s : State), c.Admitted → s.pending = [] → s.lastPin = some s.eff →
    settle c { s with pending := [.uWAIT c.cCmd, .uSETHI] } =
      { s with
        level := true
        cyc := s.cyc + c.cCmd + c.cPin
        trace := if s.dir = .OUT ∧ s.level = false then s.trace ++ [(s.cyc + c.cCmd + c.cPin, .H)]
                 else s.trace }) ∧
  (∀ s : State, s.pending ≠ [] → exec .pinHigh s = .next { s with fOverrun := true }) ∧
  (∀ w : Word, opField w = 0x2#4 → w ≠ 0x20000000 → Legal w = false)

/-- 40_sequencer.md R113 and R104. -/
def Obligations.PinLowLowersTheLatch : Prop :=
  encode .pinLow = 0x30000000 ∧
  (∀ s : State, s.pending = [] →
    exec .pinLow s = .next { s with pending := [.uWAIT cfg.cCmd, .uSETLO] }) ∧
  (∀ (c : Config) (s : State), c.Admitted → s.pending = [] → s.lastPin = some s.eff →
    settle c { s with pending := [.uWAIT c.cCmd, .uSETLO] } =
      { s with
        level := false
        cyc := s.cyc + c.cCmd + c.cPin
        trace := if s.dir = .OUT ∧ s.level = true then s.trace ++ [(s.cyc + c.cCmd + c.cPin, .L)]
                 else s.trace }) ∧
  (∀ s : State, s.pending ≠ [] → exec .pinLow s = .next { s with fOverrun := true }) ∧
  (∀ w : Word, opField w = 0x3#4 → w ≠ 0x30000000 → Legal w = false)

/-- 40_sequencer.md R114. -/
def Obligations.DelayUsSpendsItsMicroseconds : Prop :=
  (∀ u : Micros, encode (.delayUs u) = 0x4000#16 ++ u) ∧
  (∀ (u : Micros) (s : State), s.pending = [] →
    exec (.delayUs u) s = .next { s with pending := [.uWAIT cfg.cCmd, .uWAIT (cfg.usToCyc u.toNat)] }) ∧
  (∀ (c : Config) (u : Micros) (s : State), c.Admitted → s.pending = [] →
    settle c { s with pending := [.uWAIT c.cCmd, .uWAIT (c.usToCyc u.toNat)] } =
        { s with cyc := s.cyc + c.cCmd + c.usToCyc u.toNat } ∧
      c.usToCyc 0 = 0) ∧
  (∀ (u : Micros) (s : State), s.pending ≠ [] → exec (.delayUs u) s = .next { s with fOverrun := true }) ∧
  (∀ w : Word, opField w = 0x4#4 → w.extractLsb' 16 12 ≠ 0 → Legal w = false)

/-- 45_init.md R170. -/
def Obligations.InitMakesAnOutputAtLow : Prop :=
  encode .init = 0x50000000 ∧
  (∀ s : State, s.pending = [] →
    exec .init s = .next { s with pending := [.uWAIT cfg.cCmd, .uSETOUT, .uSETLO] }) ∧
  (∀ (c : Config) (s : State), c.Admitted → s.pending = [] → s.lastPin = some s.eff →
    settle c { s with pending := [.uWAIT c.cCmd, .uSETOUT, .uSETLO] } =
      { s with
        dir := .OUT
        level := false
        cyc := s.cyc + c.cCmd + 2 * c.cPin
        trace := s.trace ++
          (match s.dir, s.level with
           | .IN, false => [(s.cyc + c.cCmd + c.cPin, .L)]
           | .IN, true => [(s.cyc + c.cCmd + c.cPin, .H), (s.cyc + c.cCmd + 2 * c.cPin, .L)]
           | .OUT, false => []
           | .OUT, true => [(s.cyc + c.cCmd + 2 * c.cPin, .L)]) }) ∧
  (∀ s : State, s.pending ≠ [] → exec .init s = .next { s with fOverrun := true }) ∧
  (∀ w : Word, opField w = 0x5#4 → w ≠ 0x50000000 → Legal w = false)

/-- 41_bit_emitter.md R130: the pulse, and what becomes of it when the pin is already HIGH. -/
def Obligations.EmitBitSendsOnePulse : Prop :=
  (encode (.emitBit false) = 0x60000000 ∧ encode (.emitBit true) = 0x60000001) ∧
  (∀ (v : Bool) (s : State), s.pending = [] → s.dir = .OUT →
    exec (.emitBit v) s = .next { s with pending := .uWAIT cfg.cCmd :: bitOps cfg v }) ∧
  (∀ (c : Config) (v : Bool) (s : State), c.Admitted → s.pending = [] → s.dir = .OUT → s.lastPin = some s.eff →
    settle c { s with pending := .uWAIT c.cCmd :: bitOps c v } =
      { s with
        level := false
        cyc := s.cyc + c.cCmd + 2 * c.cPin + nH c v + nL c v
        trace := s.trace ++
          (if s.level then [] else [(s.cyc + c.cCmd + c.cPin, .H)]) ++
          [(s.cyc + c.cCmd + 2 * c.cPin + nH c v, .L)] }) ∧
  (∀ (v : Bool) (s : State), s.pending ≠ [] → exec (.emitBit v) s = .next { s with fOverrun := true }) ∧
  (∀ (v : Bool) (s : State), s.pending = [] → s.dir = .IN →
    exec (.emitBit v) s = .next { s with fNoinit := true, pending := [.uWAIT cfg.cCmd] }) ∧
  (∀ w : Word, opField w = 0x6#4 → w.extractLsb' 1 27 ≠ 0 → Legal w = false)

/-- 42_byte_emitter.md R140: eight pulses, `x[7]` first, and the duration by the number `k1` of 1 bits. -/
def Obligations.EmitByteSendsEightPulses : Prop :=
  (∀ x : Byte, encode (.emitByte x) = 0x700000#24 ++ x) ∧
  (∀ (x : Byte) (s : State), s.pending = [] → s.dir = .OUT →
    exec (.emitByte x) s = .next { s with pending := .uWAIT cfg.cCmd :: byteOps cfg x }) ∧
  (∀ (c : Config) (x : Byte) (s : State), c.Admitted → s.pending = [] → s.dir = .OUT → s.lastPin = some s.eff →
    let k1 := (byteBits x).count true
    let t := settle c { s with pending := .uWAIT c.cCmd :: byteOps c x }
    t = { s with
          level := false
          cyc := s.cyc + c.cCmd + 8 * (c.cBitOvh + 2 * c.cPin) + k1 * (c.nH1 + c.nL1) + (8 - k1) * (c.nH0 + c.nL0)
          trace := s.trace ++
            (let events := bitsEvents c (s.cyc + c.cCmd) (byteBits x)
             if s.level then events.tail else events) } ∧
      t.cyc = s.cyc + c.cCmd + periodSum c (byteBits x) ∧ t.viewSR c = 0 ∧ t.viewBC c = 0) ∧
  (∀ (x : Byte) (s : State), s.pending ≠ [] → exec (.emitByte x) s = .next { s with fOverrun := true }) ∧
  (∀ (x : Byte) (s : State), s.pending = [] → s.dir = .IN →
    exec (.emitByte x) s = .next { s with fNoinit := true, pending := [.uWAIT cfg.cCmd] }) ∧
  (∀ w : Word, opField w = 0x7#4 → w.extractLsb' 8 20 ≠ 0 → Legal w = false)

/-- 43_pixel_emitter.md R150: 24 pulses, green, red, blue, each most significant bit first, and the duration. -/
def Obligations.SendPixelSendsTwentyFourPulses : Prop :=
  (∀ g r b : Byte, encode (.sendPixel g r b) = 0x80#8 ++ g ++ r ++ b) ∧
  (∀ (g r b : Byte) (s : State), s.pending = [] → s.dir = .OUT →
    exec (.sendPixel g r b) s = .next { s with pending := .uWAIT cfg.cCmd :: pixelOps cfg (g ++ r ++ b) }) ∧
  (∀ (c : Config) (g r b : Byte) (s : State), c.Admitted → s.pending = [] → s.dir = .OUT → s.lastPin = some s.eff →
    settle c { s with pending := .uWAIT c.cCmd :: pixelOps c (g ++ r ++ b) } =
      { s with
        level := false
        cyc := s.cyc + c.cCmd + 3 * c.cByteOvh + periodSum c (pixelBits (g ++ r ++ b))
        trace := s.trace ++
          (let events := bytesEvents c (s.cyc + c.cCmd) [g, r, b]
           if s.level then events.tail else events) }) ∧
  (∀ (g r b : Byte) (s : State), s.pending ≠ [] →
    exec (.sendPixel g r b) s = .next { s with fOverrun := true }) ∧
  (∀ (g r b : Byte) (s : State), s.pending = [] → s.dir = .IN →
    exec (.sendPixel g r b) s = .next { s with fNoinit := true, pending := [.uWAIT cfg.cCmd] }) ∧
  (∀ w : Word, opField w = 0x8#4 → (w.extractLsb' 24 4 ≠ 0 ↔ Legal w = false))

/-- 44_latch.md R160. -/
def Obligations.LatchHoldsThePinLow : Prop :=
  encode .latch = 0x90000000 ∧
  (∀ s : State, s.pending = [] → s.dir = .OUT →
    exec .latch s = .next { s with pending := [.uWAIT cfg.cCmd, .uSETLO, .uWAIT (cfg.usToCyc 60)] }) ∧
  (∀ (c : Config) (s : State), c.Admitted → s.pending = [] → s.dir = .OUT → s.lastPin = some s.eff →
    settle c { s with pending := [.uWAIT c.cCmd, .uSETLO, .uWAIT (c.usToCyc 60)] } =
      { s with
        level := false
        cyc := s.cyc + c.cCmd + c.cPin + c.usToCyc 60
        trace := if s.level then s.trace ++ [(s.cyc + c.cCmd + c.cPin, .L)] else s.trace }) ∧
  (∀ s : State, s.pending ≠ [] → exec .latch s = .next { s with fOverrun := true }) ∧
  (∀ s : State, s.pending = [] → s.dir = .IN →
    exec .latch s = .next { s with fNoinit := true, pending := [.uWAIT cfg.cCmd] }) ∧
  (∀ w : Word, opField w = 0x9#4 → w ≠ 0x90000000 → Legal w = false)

/-- What accepting any of the ten commands leaves unchanged: everything but the pending list and the NOINIT and
OVERRUN bits, each of which is written only where its rule says (30_encoding.md R80; 60_exceptions.md R200, R208). -/
def Obligations.AcceptingACommandLeavesTheRest : Prop :=
  ∀ (i : Instr) (s t : State), exec i s = .next t →
    t.dir = s.dir ∧ t.level = s.level ∧ t.fIllegal = s.fIllegal ∧ t.ie = s.ie ∧ t.cyc = s.cyc ∧
    t.trace = s.trace ∧ t.inputs = s.inputs ∧ t.hostKind = s.hostKind ∧ t.hostReads = s.hostReads ∧
    t.draws = s.draws ∧
    (s.pending = [] → t.fOverrun = s.fOverrun) ∧
    (s.pending ≠ [] → t.fNoinit = s.fNoinit ∧ t.pending = s.pending) ∧
    (s.dir = .OUT → t.fNoinit = s.fNoinit)

/-- What completing any command leaves unchanged: the fault bits, the interrupt enable, the host's own fields, and the
trace so far (40_sequencer.md R101). -/
def Obligations.CompletingACommandLeavesTheRest : Prop :=
  ∀ (s : State),
    let t := settle cfg s
    t.fIllegal = s.fIllegal ∧ t.fNoinit = s.fNoinit ∧ t.fOverrun = s.fOverrun ∧ t.ie = s.ie ∧
    t.inputs = s.inputs ∧ t.hostKind = s.hostKind ∧ t.hostReads = s.hostReads ∧ t.draws = s.draws ∧
    t.pending = [] ∧ s.trace <+: t.trace ∧ t.cyc = s.cyc + dur cfg s.pending ∧
    (MicroOp.uSETOUT ∉ s.pending → t.dir = s.dir) ∧
    (MicroOp.uSETHI ∉ s.pending → MicroOp.uSETLO ∉ s.pending → t.level = s.level)

/-- 70_reset_and_hazards.md R259: the duration of each command from acceptance to completion with `S.ie = 0`; a
faulted command takes `C_CMD` and an overrun 0. -/
def Obligations.CommandsTakeTheirStatedDurations : Prop :=
  (∀ (i : Instr) (s t : State), exec i s = .next t →
    (s.pending = [] → (i.needsInit = true → s.dir = .OUT) → (settle cfg t).cyc = s.cyc + duration cfg i) ∧
    (s.pending = [] → i.needsInit = true → s.dir = .IN → (settle cfg t).cyc = s.cyc + cfg.cCmd) ∧
    (s.pending ≠ [] → t.cyc = s.cyc ∧ (settle cfg t).cyc = (settle cfg s).cyc)) ∧
  (∀ (w : Word) (s t : State), s.pending = [] → Legal w = false → accept cfg exec w s = .next t →
    (settle cfg t).cyc = s.cyc + cfg.cCmd)

/-! ## The sequencer -/

/-- 40_sequencer.md R101 to R107: one step executes the head micro-operation whole, after its stall, and removes it;
a stall is drawn only while interrupts are enabled; a step not enabled is no step. -/
def Obligations.SequencerExecutesTheHeadMicroOp : Prop :=
  ∀ (s : State) (st : Nat) (rest : List Move), s.inputs = .seq st :: rest →
    (∀ op ops, s.pending = op :: ops → st = 0 ∨ s.ie = true →
      step s = .next
        (match op with
         | .uNOP => { s with inputs := rest, pending := ops, cyc := s.cyc + st + 1 }
         | .uWAIT n => { s with inputs := rest, pending := ops, cyc := s.cyc + st + n }
         | .uSETOUT =>
           { s with
             inputs := rest, pending := ops, dir := .OUT, cyc := s.cyc + st + cfg.cPin
             trace := if s.lastPin = some (if s.level then .H else .L) then s.trace
                      else s.trace ++ [(s.cyc + st + cfg.cPin, if s.level then .H else .L)] }
         | .uSETHI =>
           { s with
             inputs := rest, pending := ops, level := true, cyc := s.cyc + st + cfg.cPin
             trace := if s.lastPin = some (if s.dir = .OUT then .H else .Z) then s.trace
                      else s.trace ++ [(s.cyc + st + cfg.cPin, if s.dir = .OUT then .H else .Z)] }
         | .uSETLO =>
           { s with
             inputs := rest, pending := ops, level := false, cyc := s.cyc + st + cfg.cPin
             trace := if s.lastPin = some (if s.dir = .OUT then .L else .Z) then s.trace
                      else s.trace ++ [(s.cyc + st + cfg.cPin, if s.dir = .OUT then .L else .Z)] })) ∧
    ((s.pending = [] ∨ (st ≠ 0 ∧ s.ie = false)) → step s = .fault .seqNotEnabled)

/-- The sequencer steps of its own accord while the block is busy and no other agent moves: with no stall while
interrupts are disabled, with some stall while they are enabled (60_exceptions.md R210; the rule that it is the
sequencer's turn then is the model's, notes/assumptions/1.md). -/
def Obligations.SequencerStepsWhileTheHostWaits : Prop :=
  ∀ s : State, s.pending ≠ [] → s.undisturbed = true →
    (s.ie = false → step s = .next (seqStep cfg 0 s)) ∧
    (s.ie = true → ∃ st, step s = .next { seqStep cfg st s with draws := s.draws + 1 })

/-- Left undisturbed with interrupts disabled, the machine's own steps take the command in flight to the state
`settle` gives, one step a micro-operation, and the time moves by the list's cost (40_sequencer.md R101). -/
def Obligations.StepsReachTheSettledState : Prop :=
  ∀ s : State, s.undisturbed = true → s.ie = false →
    Host.Core.run Sys2Proof.core s.pending.length s = .next (settle cfg s) ∧
    (settle cfg s).cyc = s.cyc + dur cfg s.pending

/-- 60_exceptions.md R220: "every command completes after finitely many sequencer steps", whatever stalls the
environment draws. -/
def Obligations.EveryCommandCompletes : Prop :=
  ∀ s : State, s.undisturbed = true →
    ∃ t, Host.Core.run Sys2Proof.core s.pending.length s = .next t ∧ t.pending = [] ∧ t.inputs = s.inputs ∧
      s.cyc + dur cfg s.pending ≤ t.cyc ∧ (s.ie = false → t.cyc = s.cyc + dur cfg s.pending)

/-! ## Whole-machine rules -/

/-- The invariant of the trace holds at power-on. -/
def Obligations.TraceInvariantHoldsAtReset : Prop := State.reset.TraceOk

/-- 10_state.md R32: every step keeps the trace's form, and its last event shows the effective pin value. -/
def Obligations.TraceInvariantKeptByEveryStep : Prop :=
  ∀ s t : State, s.TraceOk → step s = .next t → t.TraceOk

/-- 10_state.md R27, 60_exceptions.md R201 and R209: no step but a reset clears a fault bit, and a reset clears all. -/
def Obligations.OnlyResetClearsFaultBits : Prop :=
  ∀ s t : State, step s = .next t →
    (s.resetNext = false →
      (s.fIllegal = true → t.fIllegal = true) ∧ (s.fNoinit = true → t.fNoinit = true) ∧
      (s.fOverrun = true → t.fOverrun = true)) ∧
    (s.resetNext = true → t.faultFree = true)

/-- 10_state.md R22: only `uSETOUT` changes the direction, and only to OUT; only INIT and PIN_OUTPUT have one; only a
reset sets the direction back to IN. -/
def Obligations.OnlySetOutAndResetChangeTheDirection : Prop :=
  (∀ s t : State, step s = .next t →
    (s.resetNext = true → t.dir = .IN) ∧
    (s.resetNext = false → t.dir ≠ s.dir →
      t.dir = .OUT ∧ s.sequencerNext = true ∧ s.pending.head? = some .uSETOUT)) ∧
  (∀ i : Instr, MicroOp.uSETOUT ∈ expand cfg i ↔ i = .init ∨ i = .pinOutput)

/-- 10_state.md R26 and 60_exceptions.md R212: no step but the sequencer's and a reset writes the direction, the latch
or the trace, and of the sequencer's only those of a pin micro-operation do. -/
def Obligations.OnlyTheSequencerWritesThePin : Prop :=
  ∀ s t : State, step s = .next t → s.resetNext = false →
    (s.sequencerNext = false → t.dir = s.dir ∧ t.level = s.level ∧ t.trace = s.trace) ∧
    (t.level ≠ s.level → s.pending.head? = some (if t.level then .uSETHI else .uSETLO)) ∧
    (t.trace ≠ s.trace → ∃ op, s.pending.head? = some op ∧ (op = .uSETOUT ∨ op = .uSETHI ∨ op = .uSETLO))

/-- 10_state.md R31: time moves forward only by a sequencer step, an `Idle(n)` while not busy or the part of a
micro-operation before a reset, and never backward; the trace so far is kept (R30, R32). And `Idle(n)` is enabled
whenever the block is not busy, moves the time by `n` and does nothing else (60_exceptions.md R215). -/
def Obligations.TimeMovesOnlyByItsSteps : Prop :=
  (∀ s t : State, step s = .next t →
    s.cyc ≤ t.cyc ∧ s.trace <+: t.trace ∧
    (t.cyc ≠ s.cyc → s.sequencerNext = true ∨
      (∃ n rest, s.inputs = .idle n :: rest ∧ s.pending = [] ∧ t.cyc = s.cyc + n) ∨
      (∃ d rest, s.inputs = .resetAt d :: rest ∧ t.cyc = s.cyc + d))) ∧
  (∀ (s : State) (n : Nat) (rest : List Move), s.inputs = .idle n :: rest → s.pending = [] →
    step s = .next { s with inputs := rest, cyc := s.cyc + n })

/-- 10_state.md R29: the block never writes the interrupt enable; only the host's `SetIE` and a reset change it, and
`SetIE` only while not busy. And `SetIE(b)` is enabled whenever the block is not busy, sets the enable to `b` and does
nothing else (60_exceptions.md R215). -/
def Obligations.OnlySetIEAndResetChangeTheEnable : Prop :=
  (∀ s t : State, step s = .next t → t.ie ≠ s.ie →
    (∃ b rest, s.inputs = .setIE b :: rest ∧ t.ie = b ∧ s.pending = []) ∨ (s.resetNext = true ∧ t.ie = false)) ∧
  (∀ (s : State) (b : Bool) (rest : List Move), s.inputs = .setIE b :: rest → s.pending = [] →
    step s = .next { s with inputs := rest, ie := b })

/-- 41_bit_emitter.md R133 and 10_state.md R35: while the block is busy, a step either leaves the pending list or
removes its head, unless it is a reset: nothing jumps, and no host access stops a command. -/
def Obligations.NothingButResetCutsACommandShort : Prop :=
  ∀ s t : State, step s = .next t → s.pending ≠ [] → s.resetNext = false →
    t.pending = s.pending ∨ (s.sequencerNext = true ∧ t.pending = s.pending.tail)

/-- 60_exceptions.md R215: a synchronous host stays one and never overruns the block. -/
def Obligations.SynchronousHostNeverOverruns : Prop :=
  ∀ s t : State, s.SyncDriven → s.fOverrun = false → step s = .next t → t.SyncDriven ∧ t.fOverrun = false

/-- A step stops only where a move is not enabled or no move is left after the run's end, and is never refused (20_memory.md R52;
40_sequencer.md R101; 60_exceptions.md R215, R220; 70_reset_and_hazards.md R241). -/
def Obligations.StepsStopOnlyWhereTheSpecHasNone : Prop :=
  ∀ s : State,
    (step s = .fault .runEnded ↔ s.inputs = [] ∧ s.pending = []) ∧
    (step s = .fault .runEnded → s.runEnds = true) ∧
    (∀ r, step s ≠ .refused r) ∧
    (∀ r, step s = .fault r → r ≠ .runEnded → ∃ m rest, s.inputs = m :: rest ∧
      (match m with
       | .issueBusy _ => s.pending = [] ∨ s.hostKind = .sync
       | .regRead off width => ¬ (width = 4 ∧ (off = 0 ∨ off = 4))
       | .regWrite off width _ => ¬ (width = 4 ∧ (off = 0 ∨ off = 4))
       | .seq st => s.pending = [] ∨ (st ≠ 0 ∧ s.ie = false)
       | .resetAt d => ¬ (s.pending = [] ∧ d = 0) ∧ ∀ op ops, s.pending = op :: ops → op.cost cfg ≤ d
       | .issue _ | .readStatus | .idle _ | .setIE _ | .reset => False))

/-! ## The waveform -/

/-- 41_bit_emitter.md R132 and R131: with the pin LOW at its start, `Bit(v)` raises the pin after `C_PIN` cycles, keeps
it HIGH for `N_H(v) + C_PIN` cycles, and then LOW for `N_L(v)` cycles to its end, in every admitted configuration. -/
def Obligations.BitIsHighThenLowForItsTimes : Prop :=
  ∀ (c : Config) (v : Bool) (s : State), c.Admitted → s.dir = .OUT → s.level = false → s.lastPin = some .L →
    runOps c (bitOps c v) s =
      { s with
        cyc := s.cyc + c.cPin + (nH c v + c.cPin) + nL c v
        trace := s.trace ++ [(s.cyc + c.cPin, .H), (s.cyc + c.cPin + (nH c v + c.cPin), .L)] }

/-- 42_byte_emitter.md R142: the loop of R141 unrolled, its working value after `k` shifts, and its next bit. -/
def Obligations.ByteLoopUnrolls : Prop :=
  ∀ (c : Config) (x : Byte),
    byteOps c x = byteUnrolled c x ∧
    ∀ k, k ≤ 7 →
      (x <<< k).toNat = x.toNat * 2 ^ k % 256 ∧ (x <<< k).getLsbD 7 = x.getLsbD (7 - k) ∧
      byteOps c x =
        ((byteBits x).take k).flatMap (fun v => .uWAIT c.cBitOvh :: bitOps c v) ++ byteLoop c (8 - k) (x <<< k)

/-- 43_pixel_emitter.md R152, 20_memory.md R57 to R59: a pixel's micro-operations send green, red, blue, each most
significant bit first: the argument's bits from 23 down to 0. -/
def Obligations.PixelGoesOutGreenRedBlue : Prop :=
  ∀ (c : Config) (g r b : Byte),
    pixelOps c (g ++ r ++ b) = pixelUnrolled c g r b ∧
    (c.Admitted →
      bitsToSend c (pixelOps c (g ++ r ++ b)) = byteBits g ++ byteBits r ++ byteBits b ∧
      bitsToSend c (pixelOps c (g ++ r ++ b)) = pixelBits (g ++ r ++ b))

/-- The loop registers are a view of the pending list (10_state.md R34, 92_eei_decisions.md D29). Before each bit of a byte
with `ch` bytes of a pixel `a` after it, `BC` is the number of its bits still to send and `SR` its shifted working value,
as the loop of 42_byte_emitter.md R141 holds them, and `CH` counts it and the bytes after it, as the loop of
43_pixel_emitter.md R151 does; with `ch = 0` the byte may be a pixel's last or an EMIT_BYTE's, whose `CH = 1` is the
model's choice (notes/assumptions/21.md). Before each byte of a pixel `CH` is the number still to send, and after the last
all three are 0. -/
def Obligations.LoopRegistersAreAViewOfThePendingList : Prop :=
  ∀ (c : Config) (s : State) (ch : Nat) (a : Arg), c.Admitted → ch ≤ 3 →
    (∀ (x : Byte) (k : Nat), k ≤ 7 → s.pending = byteLoop c (8 - k) (x <<< k) ++ pixelLoop c ch a →
      s.viewBC c = 8 - k ∧ s.viewSR c = x <<< k ∧ s.viewCH c = ch + 1) ∧
    (s.pending = pixelLoop c ch a → s.viewCH c = ch) ∧
    (s.pending = [] → s.viewBC c = 0 ∧ s.viewSR c = 0 ∧ s.viewCH c = 0)

/-- 45_init.md R171: INIT leaves output and LOW whatever they were, and a second INIT changes nothing but the time. -/
def Obligations.InitIsIdempotentOnThePin : Prop :=
  ∀ s : State, s.pending = [] → s.lastPin = some s.eff →
    ∃ t u, exec .init s = .next t ∧ exec .init (settle cfg t) = .next u ∧
      (settle cfg t).dir = .OUT ∧ (settle cfg t).level = false ∧
      settle cfg u = { settle cfg t with cyc := (settle cfg t).cyc + cfg.cCmd + 2 * cfg.cPin }

/-- 44_latch.md R162: when LATCH completes, the pin has been LOW for at least `N_LATCH` cycles, and for at least
`C_PIN + N_LATCH` if it was LOW before. -/
def Obligations.LatchLowLastsAtLeastTheHold : Prop :=
  ∀ s : State, s.pending = [] → s.dir = .OUT → s.TraceOk →
    ∃ t, exec .latch s = .next t ∧ (settle cfg t).eff = .L ∧
      ∃ at0, (settle cfg t).trace.getLast? = some (at0, .L) ∧ at0 + nLatch cfg ≤ (settle cfg t).cyc ∧
        (s.level = false → at0 + cfg.cPin + nLatch cfg ≤ (settle cfg t).cyc)

/-- 40_sequencer.md R115: a HIGH made with PIN_HIGH accepted at `t1` and PIN_LOW accepted at `t2` lasts `t2 - t1`
cycles. -/
def Obligations.PulseFromPrimitivesLastsBetweenAcceptances : Prop :=
  ∀ (s : State) (gap : Nat), s.pending = [] → s.dir = .OUT → s.level = false → s.lastPin = some .L →
    ∃ t u, exec .pinHigh s = .next t ∧ exec .pinLow (advance gap (settle cfg t)) = .next u ∧
      ∃ rise, (settle cfg u).trace = s.trace ++ [(rise, .H), (rise + (u.cyc - t.cyc), .L)]

/-- 46_waveform.md R184: between an emission command, any of the three, that ends with bit `v` and the next, any of the
three, with host gap `gap`, the pin is LOW for `N_L(v) + gap + C_CMD + X + C_PIN` cycles. -/
def Obligations.LowBetweenTwoCommands : Prop :=
  ∀ (j i : Instr) (v : Bool) (x gap : Nat) (s : State), s.pending = [] → s.dir = .OUT → s.TraceOk →
    lastBit j = some v → leadIn cfg i = some x →
    ∃ t u, exec j s = .next t ∧ exec i (advance gap (settle cfg t)) = .next u ∧
      ∃ fall more, (settle cfg t).trace.getLast? = some (fall, .L) ∧
        (settle cfg u).trace = (settle cfg t).trace ++ (fall + lowBetween cfg v gap x, .H) :: more

/-- 46_waveform.md R187 and 60_exceptions.md R207: a stall inside a HIGH phase lengthens it, and no fault bit tells. -/
def Obligations.StallLengthensThePulseUnreported : Prop :=
  ∀ (s : State) (st : Nat) (ops : List MicroOp) (rest : List Move),
    s.inputs = .seq st :: rest → s.pending = .uSETLO :: ops → s.ie = true → s.dir = .OUT → s.lastPin = some .H →
    ∃ t, step s = .next t ∧ t.trace = s.trace ++ [(s.cyc + st + cfg.cPin, .L)] ∧
      t.fIllegal = s.fIllegal ∧ t.fNoinit = s.fNoinit ∧ t.fOverrun = s.fOverrun

/-! ## The receiver -/

/-- 46_waveform.md R191 to R193 on two pulses: each bit by its sample instant, one frame or two by the LOW between
them, and in the undecided band by the reading chosen. -/
def Obligations.ReceiverReadsTwoPulses : Prop :=
  ∀ (c : Config) (band : Nat → Bool) (t0 r1 f1 r2 f2 tEnd : Nat), c.Admitted →
    0 < t0 → t0 < r1 → r1 < f1 → f1 < r2 → r2 < f2 → f2 ≤ tEnd →
    let b1 := decide (f1 > r1 + c.sSample)
    let b2 := decide (f2 > r2 + c.sSample)
    let latched := decide (tEnd - f2 ≥ c.tResetCyc)
    decodeTrace c band [(0, .Z), (t0, .L), (r1, .H), (f1, .L), (r2, .H), (f2, .L)] t0 tEnd =
      if r2 - f1 ≥ c.tResetCyc ∨ (c.tIdleMax < r2 - f1 ∧ band 0 = true) then
        some [⟨[b1], true⟩, ⟨[b2], latched⟩]
      else some [⟨[b1, b2], latched⟩]

/-- 46_waveform.md R190: the receiver decodes exactly the windows that start at L and have no event Z in them. -/
def Obligations.ReceiverRefusesAnUndrivenWindow : Prop :=
  ∀ (c : Config) (band : Nat → Bool) (trace : List (Nat × Pin)) (t0 tEnd : Nat),
    decodeTrace c band trace t0 tEnd = none ↔
      levelAt trace t0 ≠ some .L ∨ ∃ t, (t, Pin.Z) ∈ trace ∧ t0 ≤ t ∧ t ≤ tEnd

/-- 46_waveform.md R194: the bits of a frame group into pixels of 24, green, red and blue, each most significant bit
first, and the bits of an incomplete pixel are the remainder; of a latched frame the first pixel is applied (R195). -/
def Obligations.FrameBitsGroupIntoPixels : Prop :=
  ∀ (px : List Pixel) (rest : List Bool) (latched : Bool), rest.length < 24 →
    let f : Frame := ⟨(px.flatMap fun p => byteBits p.g ++ byteBits p.r ++ byteBits p.b) ++ rest, latched⟩
    f.pixels = (px, rest) ∧ f.applied = if latched then px.head? else none

/-- 46_waveform.md R196, the end-to-end property: in every compliant configuration, from a state ready to send, a
synchronous host that issues `n >= 1` SEND_PIXEL commands with gaps inside the bound and then LATCH makes exactly one
latched frame of those pixels, whatever the receiver's reading of the undecided band and wherever the window ends. -/
def Obligations.FrameArrivesAsOneLatchedFrame : Prop :=
  ∀ (c : Config) (s : State) (first : Nat × Arg) (others : List (Nat × Arg)) (lastGap : Nat),
    c.Admitted → Compliant c → s.ReadyToSend → (∀ p ∈ others, gapAllowed c p.1) →
    s.inputs = frameMoves (first :: others) lastGap →
    ∃ n t, runEnd c n s = some t ∧ t.inputs = [] ∧ t.pending = [] ∧ t.fIllegal = s.fIllegal ∧ t.fNoinit = s.fNoinit ∧
      t.fOverrun = s.fOverrun ∧
      ∀ (band : Nat → Bool) (tEnd : Nat), t.cyc ≤ tEnd →
        ∃ f, decodeTrace c band t.trace s.cyc tEnd = some [f] ∧ f.latched = true ∧
          f.bits = frameBits (first :: others) ∧ f.pixels = (framePixels (first :: others), [])

/-! ## The text of the assembly language, and the end of a run -/

/-- 30_encoding.md R79, R81 on lines of text, for all numbers whether or not they fit. With any three names among g, r and
b, the named form of SEND_PIXEL, and of its other name EMIT_PIXEL, is that pixel if the operands are the three channels in
some order, and is refused if a name is repeated ("each must appear once"). The positional form is in wire order
(PIXEL_RGB in its own), `;` starts a comment, and a binary number is read most significant bit first. -/
def Obligations.LinesOfTextAreReadAsWritten : Prop :=
  (∀ x y z : String × Nat, x.1 ∈ ["g", "r", "b"] → y.1 ∈ ["g", "r", "b"] → z.1 ∈ ["g", "r", "b"] →
    let named (m : String) : Option (Option AsmLine) :=
      parseLine (m ++ x.1 ++ "=" ++ toString x.2 ++ ", " ++ y.1 ++ "=" ++ toString y.2 ++ ", " ++
        z.1 ++ "=" ++ toString z.2).toList
    (∀ g r b : Nat, [x, y, z].Perm [("g", g), ("r", r), ("b", b)] →
      named "SEND_PIXEL " = some (some (.sendPixel g r b)) ∧ named "EMIT_PIXEL " = some (some (.emitPixel g r b))) ∧
    (¬ [x.1, y.1, z.1].Perm ["g", "r", "b"] → named "SEND_PIXEL " = none ∧ named "EMIT_PIXEL " = none)) ∧
  (∀ g r b : Nat,
    let three (m : String) : Option (Option AsmLine) :=
      parseLine (m ++ toString g ++ ", " ++ toString r ++ ", " ++ toString b).toList
    three "SEND_PIXEL " = some (some (.sendPixel g r b)) ∧
    three "EMIT_PIXEL " = some (some (.emitPixel g r b)) ∧
    three "PIXEL_RGB " = some (some (.pixelRgb g r b))) ∧
  (∀ line comment : List Char, parseLine (line ++ ';' :: comment) = parseLine line) ∧
  (∀ bits : List Bool, bits ≠ [] →
    readNumber ('0' :: 'b' :: bits.map fun v => if v then '1' else '0') =
      some (bits.foldl (fun n v => 2 * n + v.toNat) 0))

/-- 60_exceptions.md R220: a run ends at the first state where the host has no further step, whatever moves the environment
has left, and the block is not busy; it ends well there exactly if no fault bit is set. -/
def Obligations.RunEndsAtTheFirstIdleStateWithTheHostDone : Prop :=
  ∀ (c : Config) (n : Nat) (s t : State),
    (s.runEnds = true ↔
      (∀ m ∈ s.inputs, (∃ st, m = .seq st) ∨ m = .reset ∨ ∃ d, m = .resetAt d) ∧ s.pending = []) ∧
    (s.endsWell = true ↔
      s.runEnds = true ∧ s.fIllegal = false ∧ s.fNoinit = false ∧ s.fOverrun = false) ∧
    (runEnd c n s = some t ↔
      ∃ k, k ≤ n ∧ runWith c k s = .next t ∧ t.runEnds = true ∧
        ∀ j, j < k → ∀ u, runWith c j s = .next u → u.runEnds = false)
end

