-- ==== Sys2Proof/Laws/Assembler.lean ====
section
/-! SUPPORT. Reading text: the digits of a number, the pieces of a line, and its comment (30_encoding.md R79). -/

namespace Sys2Proof.Machine

/-- The character is no separator of the assembly language, so that it stays inside a word. -/
def isWordChar (ch : Char) : Bool := ch != ' ' && ch != '\t' && ch != ',' && ch != '=' && ch != ';'

/-! ## Numbers -/

theorem digitValue_digit {ch : Char} (h : ch.isDigit = true) : digitValue 10 ch = some (ch.toNat - '0'.toNat) := by
  simp only [Char.isDigit, Bool.and_eq_true, decide_eq_true_eq, ge_iff_le, UInt32.le_iff_toNat_le] at h
  have h1 : 48 ≤ ch.toNat := h.1
  have h2 : ch.toNat ≤ 57 := h.2
  have e : '0'.toNat = 48 := rfl
  have h3 : ch.toNat - 48 < 10 := by omega
  simp [digitValue, h1, h2, e, h3]

theorem readDigits_decimal (cs : List Char) (acc : Nat) (h : ∀ ch ∈ cs, ch.isDigit = true) :
    readDigits 10 cs acc = some (Nat.ofDigitChars 10 cs acc) := by
  induction cs generalizing acc with
  | nil => simp [readDigits]
  | cons ch cs ih =>
    rw [readDigits, digitValue_digit (h ch (by simp)), Nat.ofDigitChars_cons]
    exact ih _ fun d hd => h d (by simp [hd])

theorem isDigit_of_mem_toString {n : Nat} {ch : Char} (h : ch ∈ (toString n).toList) : ch.isDigit = true := by
  rw [Nat.toString_eq_ofList_toDigits, String.toList_ofList] at h
  exact Nat.isDigit_of_mem_toDigits (by decide) (by decide) h

theorem toString_ne_nil (n : Nat) : (toString n).toList ≠ [] := by
  rw [Nat.toString_eq_ofList_toDigits, String.toList_ofList]
  exact Nat.toDigits_ne_nil

/-- A list of decimal digits is read as decimal. -/
theorem readNumber_digits {cs : List Char} (hne : cs ≠ []) (h : ∀ ch ∈ cs, ch.isDigit = true) :
    readNumber cs = some (Nat.ofDigitChars 10 cs 0) := by
  rw [← readDigits_decimal cs 0 h]
  unfold readNumber
  split
  · exact absurd rfl hne
  · exact absurd (h 'x' (by simp)) (by decide)
  · exact absurd (h 'b' (by simp)) (by decide)
  · rfl

/-- A number written in decimal is read back. -/
theorem readNumber_toString (n : Nat) : readNumber (toString n).toList = some n := by
  rw [readNumber_digits (toString_ne_nil n) fun _ => isDigit_of_mem_toString, Nat.toString_eq_ofList_toDigits,
    String.toList_ofList, Nat.ofDigitChars_ten_toDigits]

theorem digitValue_hexDigit {n : Nat} (h : n < 16) : digitValue 16 (hexDigit n) = some n := by
  revert n; decide

theorem readDigits_append (base : Nat) (xs ys : List Char) (acc : Nat) :
    readDigits base (xs ++ ys) acc = (readDigits base xs acc).bind (readDigits base ys) := by
  induction xs generalizing acc with
  | nil => rfl
  | cons ch xs ih =>
    simp only [List.cons_append, readDigits]
    cases digitValue base ch with
    | none => rfl
    | some v => exact ih _

/-- The low `k` hexadecimal digits of a number are read as the number modulo `16 ^ k`. -/
theorem readDigits_hexDigits (k n acc : Nat) : readDigits 16 (hexDigits k n) acc = some (acc * 16 ^ k + n % 16 ^ k) := by
  induction k generalizing n with
  | zero => simp [hexDigits, readDigits, Nat.mod_one]
  | succ k ih =>
    rw [hexDigits, readDigits_append, ih, Option.bind_some]
    simp only [readDigits, digitValue_hexDigit (Nat.mod_lt n (show 0 < 16 by decide))]
    have e : n % 16 ^ (k + 1) = n % 16 + 16 * (n / 16 % 16 ^ k) := by rw [Nat.pow_succ, Nat.mul_comm, Nat.mod_mul]
    rw [e, Nat.pow_succ]
    congr 1
    ring

/-! ## Words -/

theorem isWordChar_of_isDigit {ch : Char} (h : ch.isDigit = true) : isWordChar ch = true := by
  by_contra hne
  simp only [isWordChar, Bool.and_eq_true, bne_iff_ne, ne_eq, not_and_or, not_not] at hne
  rcases hne with (((e | e) | e) | e) | e <;> subst e <;> exact absurd h (by decide)

theorem toString_wordChars (n : Nat) : (toString n).toList.all isWordChar = true :=
  List.all_eq_true.2 fun _ hc => isWordChar_of_isDigit (isDigit_of_mem_toString hc)

theorem hexDigits_wordChars (k n : Nat) : (hexDigits k n).all isWordChar = true := by
  have digit : ∀ m < 16, isWordChar (hexDigit m) = true := by decide
  induction k generalizing n with
  | zero => rfl
  | succ k ih => simp [hexDigits, ih, digit _ (Nat.mod_lt n (show 0 < 16 by decide))]

/-- Every name of the table is one word. -/
theorem asmTable_names : ∀ row ∈ asmTable, row.1.toList ≠ [] ∧ row.1.toList.all isWordChar = true := by decide

theorem semicolon_notMem_wordChars {cs : List Char} (h : cs.all isWordChar = true) : ';' ∉ cs :=
  fun hm => absurd (List.all_eq_true.1 h _ hm) (by decide)

/-- The characters of a word go to the word read so far. -/
theorem tokens_append {cs : List Char} (rest acc : List Char) (h : cs.all isWordChar = true) :
    tokens (cs ++ rest) acc = tokens rest (acc ++ cs) := by
  induction cs generalizing acc with
  | nil => simp
  | cons ch cs ih =>
    rw [List.all_cons, Bool.and_eq_true] at h
    have hc := h.1
    simp only [isWordChar, Bool.and_eq_true, bne_iff_ne, ne_eq] at hc
    rw [List.cons_append, tokens, if_neg (by simp [hc.1.1.1.1, hc.1.1.1.2]), if_neg hc.1.1.2, if_neg hc.1.2, ih _ h.2]
    simp

/-- A number written in decimal goes to the word read so far. -/
theorem tokens_toString (n : Nat) (rest acc : List Char) :
    tokens ((toString n).toList ++ rest) acc = tokens rest (acc ++ (toString n).toList) :=
  tokens_append rest acc (toString_wordChars n)

theorem flushWord_of_ne_nil {acc : List Char} (rest : List Token) (h : acc ≠ []) :
    flushWord acc rest = .word acc :: rest := by
  cases acc with
  | nil => exact absurd rfl h
  | cons _ _ => rfl

theorem tokens_nil (acc : List Char) : tokens [] acc = flushWord acc [] := rfl

theorem tokens_space (rest acc : List Char) : tokens (' ' :: rest) acc = flushWord acc (tokens rest []) := by simp [tokens]

theorem tokens_comma (rest acc : List Char) : tokens (',' :: rest) acc = flushWord acc (.comma :: tokens rest []) := by
  simp [tokens]

theorem tokens_equals (rest acc : List Char) : tokens ('=' :: rest) acc = flushWord acc (.equals :: tokens rest []) := by
  simp [tokens]

/-- A word before a blank is one token. -/
theorem tokens_word_space {cs : List Char} (rest : List Char) (hne : cs ≠ []) (h : cs.all isWordChar = true) :
    tokens (cs ++ ' ' :: rest) [] = .word cs :: tokens rest [] := by
  rw [tokens_append _ _ h, tokens_space, List.nil_append, flushWord_of_ne_nil _ hne]

/-- A number before a comma is one token. -/
theorem tokens_number_comma (n : Nat) (rest : List Char) :
    tokens ((toString n).toList ++ ',' :: rest) [] = .word (toString n).toList :: .comma :: tokens rest [] := by
  rw [tokens_toString, tokens_comma, List.nil_append, flushWord_of_ne_nil _ (toString_ne_nil n)]

/-- A word at the end of a line is one token. -/
theorem tokens_word_end {cs : List Char} (hne : cs ≠ []) (h : cs.all isWordChar = true) : tokens cs [] = [.word cs] := by
  rw [← List.append_nil cs, tokens_append _ _ h, tokens_nil, List.nil_append, List.append_nil, flushWord_of_ne_nil _ hne]

/-- A number at the end of a line is one token. -/
theorem tokens_number_end (n : Nat) : tokens (toString n).toList [] = [.word (toString n).toList] :=
  tokens_word_end (toString_ne_nil n) (toString_wordChars n)

/-- The name of a named operand and its equals sign are two tokens. -/
theorem tokens_name_equals {ch : Char} (rest : List Char) (h : isWordChar ch = true) :
    tokens (ch :: '=' :: rest) [] = .word [ch] :: .equals :: tokens rest [] := by
  have e := tokens_append (cs := [ch]) ('=' :: rest) [] (by simpa using h)
  rw [List.singleton_append] at e
  rw [e, tokens_equals, List.nil_append, flushWord_of_ne_nil _ (List.cons_ne_nil _ _)]

/-! ## Comments -/

/-- What stands after a `;` is no part of the line. -/
theorem stripComment_append (line comment : List Char) : stripComment (line ++ ';' :: comment) = stripComment line := by
  induction line with
  | nil => simp [stripComment]
  | cons ch line ih =>
    simp only [List.cons_append, stripComment, ih]

/-- A line without `;` has no comment. -/
theorem stripComment_eq_self {cs : List Char} (h : ';' ∉ cs) : stripComment cs = cs := by
  induction cs with
  | nil => rfl
  | cons ch cs ih =>
    simp only [List.mem_cons, not_or] at h
    rw [stripComment, if_neg (fun e => h.1 e.symm), ih h.2]

theorem semicolon_notMem_toString (n : Nat) : ';' ∉ (toString n).toList :=
  semicolon_notMem_wordChars (toString_wordChars n)

end Sys2Proof.Machine
end

