-- ==== Sys2Proof/Laws/Config.lean ====
section
/-! SUPPORT. The configuration: every choice of the open numbers is admitted, every admitted configuration is a choice
of them, and what an admitted configuration gives the machine (00_scope.md R6, R8). -/

namespace Sys2Proof.Config

theorem sumIncrements_mono (f : Nat → Nat) {u v : Nat} (h : u ≤ v) : sumIncrements f u ≤ sumIncrements f v := by
  induction h with
  | refl => exact Nat.le_refl _
  | step _ ih => exact Nat.le_trans ih (Nat.le_add_right _ _)

theorem tResetCyc_pos {fCpu tns : Nat} (hf : 0 < fCpu) (ht : 0 < tns) : 0 < cyclesOfNs fCpu tns := by
  have : 0 < tns * fCpu := Nat.mul_pos ht hf
  unfold cyclesOfNs; omega

/-- The free configuration is admitted, whatever its open numbers are. -/
theorem build_admitted (o : Open) : (build o).Admitted where
  fCpu_pos := Nat.succ_pos _
  cPin_pos := Nat.succ_le_succ (Nat.zero_le _)
  cNop_one := rfl
  nH_lt := by simp only [build]; omega
  usToCyc_mono := fun _ _ h => sumIncrements_mono _ h
  usToCyc_zero := rfl
  latchUs_eq := rfl
  tResetNs_eq := rfl
  tIdleMax_lt := Nat.mod_lt _ (tResetCyc_pos (Nat.succ_pos _) (by decide))

/-- No admitted configuration is left out: each is the one built from some open numbers. -/
theorem exists_build (c : Config) (h : c.Admitted) : ∃ o, build o = c := by
  refine ⟨⟨c.fCpu - 1, c.pinId, c.bteBase, c.cCmd, c.cPin - 1, c.cBitOvh, c.cByteOvh, c.nH0, c.nH1 - c.nH0 - 1,
    c.nL0, c.nL1, fun u => c.usToCyc (u + 1) - c.usToCyc u, c.t0hNs, c.t1hNs, c.tBitNs, c.tolHNs, c.tolPNs,
    c.ratioLo, c.ratioHi, c.sSample, c.tIdleMax⟩, ?_⟩
  have hus : sumIncrements (fun u => c.usToCyc (u + 1) - c.usToCyc u) = c.usToCyc := by
    funext u
    induction u with
    | zero => exact h.usToCyc_zero.symm
    | succ n ih => rw [sumIncrements, ih, Nat.add_sub_cancel' (h.usToCyc_mono n (n + 1) (Nat.le_succ n))]
  obtain ⟨hf, hp, hn, hh, _, _, hl, hr, hi⟩ := h
  cases c
  simp only [tResetCyc] at hf hp hn hh hl hr hi hus
  subst hn hl hr
  simp only [build, hus, Nat.sub_add_cancel hp, Nat.sub_add_cancel (Nat.succ_le_of_lt hf), Nat.mod_eq_of_lt hi]
  congr 1
  omega

theorem ref16_admitted : ref16.Admitted where
  fCpu_pos := by decide
  cPin_pos := by decide
  cNop_one := rfl
  nH_lt := by decide
  usToCyc_mono := fun u v h => by simp only [ref16]; omega
  usToCyc_zero := by decide
  latchUs_eq := rfl
  tResetNs_eq := rfl
  tIdleMax_lt := by decide

end Sys2Proof.Config

namespace Sys2Proof

/-- The machine's configuration is admitted. -/
theorem cfg_admitted : cfg.Admitted := Config.build_admitted _

@[simp] theorem cfg_cNop : cfg.cNop = 1 := rfl

@[simp] theorem cfg_latchUs : cfg.latchUs = 60 := rfl

theorem cfg_cPin_pos : 1 ≤ cfg.cPin := cfg_admitted.cPin_pos

namespace Machine

theorem nH_true_ne_false {c : Config} (h : c.Admitted) : c.nH0 ≠ c.nH1 := Nat.ne_of_lt h.nH_lt

@[simp] theorem nLatch_cfg : nLatch cfg = cfg.usToCyc 60 := rfl

end Machine

end Sys2Proof
end

