-- ==== Sys2Proof/Laws/Decode.lean ====
section
/-! SUPPORT. The fields of a packed word and the packing of a word's fields (30_encoding.md R70), and one lemma for each
sub-form (R73). -/

namespace Sys2Proof

theorem opField_packWord (op : BitVec 4) (a : Arg) : opField (packWord op a) = op := by
  apply BitVec.eq_of_getLsbD_eq; intro i hi
  simp only [opField, packWord, BitVec.getLsbD_extractLsb', BitVec.getLsbD_append]
  interval_cases i <;> simp

theorem rsvField_packWord (op : BitVec 4) (a : Arg) : rsvField (packWord op a) = 0 := by
  apply BitVec.eq_of_getLsbD_eq; intro i hi
  simp only [rsvField, packWord, BitVec.getLsbD_extractLsb', BitVec.getLsbD_append]
  interval_cases i <;> simp

theorem argField_packWord (op : BitVec 4) (a : Arg) : argField (packWord op a) = a := by
  apply BitVec.eq_of_getLsbD_eq; intro i hi
  simp only [argField, packWord, BitVec.getLsbD_extractLsb', BitVec.getLsbD_append, hi, Nat.zero_add, decide_true,
    Bool.true_and, if_true]

/-- A word whose reserved field is 0 is the packing of its opcode and argument. -/
theorem packWord_fields (w : Word) (h : rsvField w = 0) : packWord (opField w) (argField w) = w := by
  have h' : w.extractLsb' 24 4 = 0#4 := h
  apply BitVec.eq_of_getLsbD_eq; intro i hi
  rw [opField, argField, packWord, ← h']
  simp only [BitVec.getLsbD_extractLsb', BitVec.getLsbD_append]
  split
  · simp only [*, decide_true, Bool.true_and, Nat.zero_add]
  · split
    · have e : 24 + (i - 24) = i := by omega
      simp only [*, decide_true, Bool.true_and]
    · have h4 : i - 24 - 4 < 4 := by omega
      have e : 28 + (i - 24 - 4) = i := by omega
      simp only [*, decide_true, Bool.true_and]

/-- An argument with zeros above its low 16 bits is those bits, zero-extended. -/
theorem arg_of_low16 (a : Arg) (h : a.extractLsb' 16 8 = 0) : 0#8 ++ a.extractLsb' 0 16 = a := by
  have h' : a.extractLsb' 16 8 = 0#8 := h
  apply BitVec.eq_of_getLsbD_eq; intro i hi
  rw [← h']
  simp only [BitVec.getLsbD_extractLsb', BitVec.getLsbD_append]
  split
  · simp only [*, decide_true, Bool.true_and, Nat.zero_add]
  · have h4 : i - 16 < 8 := by omega
    have e : 16 + (i - 16) = i := by omega
    simp only [*, decide_true, Bool.true_and]

/-- An argument with zeros above its low 8 bits is those bits, zero-extended. -/
theorem arg_of_low8 (a : Arg) (h : a.extractLsb' 8 16 = 0) : 0#16 ++ a.extractLsb' 0 8 = a := by
  have h' : a.extractLsb' 8 16 = 0#16 := h
  apply BitVec.eq_of_getLsbD_eq; intro i hi
  rw [← h']
  simp only [BitVec.getLsbD_extractLsb', BitVec.getLsbD_append]
  split
  · simp only [*, decide_true, Bool.true_and, Nat.zero_add]
  · have h4 : i - 8 < 16 := by omega
    have e : 8 + (i - 8) = i := by omega
    simp only [*, decide_true, Bool.true_and]

/-- An argument with zeros above its lowest bit is that bit, zero-extended. -/
theorem arg_of_low1 (a : Arg) (h : a.extractLsb' 1 23 = 0) : 0#23 ++ BitVec.ofBool (a.getLsbD 0) = a := by
  have h' : a.extractLsb' 1 23 = 0#23 := h
  apply BitVec.eq_of_getLsbD_eq; intro i hi
  rw [← h']
  simp only [BitVec.getLsbD_extractLsb', BitVec.getLsbD_append]
  split
  · have e : i = 0 := by omega
    subst e; simp
  · have h4 : i - 1 < 23 := by omega
    have e : 1 + (i - 1) = i := by omega
    simp only [*, decide_true, Bool.true_and]

/-- The three channels of an argument, put together again, are the argument. -/
theorem pixelArg_fields (a : Arg) :
    pixelArg (a.extractLsb' 16 8) (a.extractLsb' 8 8) (a.extractLsb' 0 8) = a := by
  apply BitVec.eq_of_getLsbD_eq; intro i hi
  simp only [pixelArg, BitVec.getLsbD_extractLsb', BitVec.getLsbD_append]
  split
  · simp only [*, decide_true, Bool.true_and, Nat.zero_add]
  · split
    · have e : 8 + (i - 8) = i := by omega
      simp only [*, decide_true, Bool.true_and]
    · have h4 : i - 8 - 8 < 8 := by omega
      have e : 16 + (i - 8 - 8) = i := by omega
      simp only [*, decide_true, Bool.true_and]

theorem pixelArg_green (g r b : Byte) : (pixelArg g r b).extractLsb' 16 8 = g := by
  apply BitVec.eq_of_getLsbD_eq; intro i hi
  simp only [pixelArg, BitVec.getLsbD_extractLsb', BitVec.getLsbD_append]
  interval_cases i <;> simp

theorem pixelArg_red (g r b : Byte) : (pixelArg g r b).extractLsb' 8 8 = r := by
  apply BitVec.eq_of_getLsbD_eq; intro i hi
  simp only [pixelArg, BitVec.getLsbD_extractLsb', BitVec.getLsbD_append]
  interval_cases i <;> simp

theorem pixelArg_blue (g r b : Byte) : (pixelArg g r b).extractLsb' 0 8 = b := by
  apply BitVec.eq_of_getLsbD_eq; intro i hi
  simp only [pixelArg, BitVec.getLsbD_extractLsb', BitVec.getLsbD_append]
  interval_cases i <;> simp

theorem low16_high (u : Micros) : (0#8 ++ u : Arg).extractLsb' 16 8 = 0 := by
  apply BitVec.eq_of_getLsbD_eq; intro i hi
  simp only [BitVec.getLsbD_extractLsb', BitVec.getLsbD_append]
  interval_cases i <;> simp

theorem low16_low (u : Micros) : (0#8 ++ u : Arg).extractLsb' 0 16 = u := by
  apply BitVec.eq_of_getLsbD_eq; intro i hi
  simp only [BitVec.getLsbD_extractLsb', BitVec.getLsbD_append]
  interval_cases i <;> simp

theorem low8_high (x : Byte) : (0#16 ++ x : Arg).extractLsb' 8 16 = 0 := by
  apply BitVec.eq_of_getLsbD_eq; intro i hi
  simp only [BitVec.getLsbD_extractLsb', BitVec.getLsbD_append]
  interval_cases i <;> simp

theorem low8_low (x : Byte) : (0#16 ++ x : Arg).extractLsb' 0 8 = x := by
  apply BitVec.eq_of_getLsbD_eq; intro i hi
  simp only [BitVec.getLsbD_extractLsb', BitVec.getLsbD_append]
  interval_cases i <;> simp

theorem low1_high (v : Bool) : (0#23 ++ BitVec.ofBool v : Arg).extractLsb' 1 23 = 0 := by cases v <;> decide

theorem low1_low (v : Bool) : (0#23 ++ BitVec.ofBool v : Arg).getLsbD 0 = v := by cases v <;> decide

end Sys2Proof
end

