-- ==== Sys2Proof/Laws/State.lean ====
section
/-! SUPPORT. One lemma for each field under each operation that updates the state: what the operation writes, and that
it leaves every other field alone. No later proof unfolds a record update. -/

namespace Sys2Proof.Machine

/-! advance -/

@[simp] theorem advance_dir (n : Nat) (s : State) : (advance n s).dir = s.dir := rfl
@[simp] theorem advance_level (n : Nat) (s : State) : (advance n s).level = s.level := rfl
@[simp] theorem advance_fIllegal (n : Nat) (s : State) : (advance n s).fIllegal = s.fIllegal := rfl
@[simp] theorem advance_fNoinit (n : Nat) (s : State) : (advance n s).fNoinit = s.fNoinit := rfl
@[simp] theorem advance_fOverrun (n : Nat) (s : State) : (advance n s).fOverrun = s.fOverrun := rfl
@[simp] theorem advance_pending (n : Nat) (s : State) : (advance n s).pending = s.pending := rfl
@[simp] theorem advance_ie (n : Nat) (s : State) : (advance n s).ie = s.ie := rfl
@[simp] theorem advance_cyc (n : Nat) (s : State) : (advance n s).cyc = s.cyc + n := rfl
@[simp] theorem advance_trace (n : Nat) (s : State) : (advance n s).trace = s.trace := rfl
@[simp] theorem advance_inputs (n : Nat) (s : State) : (advance n s).inputs = s.inputs := rfl
@[simp] theorem advance_hostKind (n : Nat) (s : State) : (advance n s).hostKind = s.hostKind := rfl
@[simp] theorem advance_hostReads (n : Nat) (s : State) : (advance n s).hostReads = s.hostReads := rfl
@[simp] theorem advance_draws (n : Nat) (s : State) : (advance n s).draws = s.draws := rfl

/-! setpin -/

@[simp] theorem setpin_dir (s : State) : (setpin s).dir = s.dir := rfl
@[simp] theorem setpin_level (s : State) : (setpin s).level = s.level := rfl
@[simp] theorem setpin_fIllegal (s : State) : (setpin s).fIllegal = s.fIllegal := rfl
@[simp] theorem setpin_fNoinit (s : State) : (setpin s).fNoinit = s.fNoinit := rfl
@[simp] theorem setpin_fOverrun (s : State) : (setpin s).fOverrun = s.fOverrun := rfl
@[simp] theorem setpin_pending (s : State) : (setpin s).pending = s.pending := rfl
@[simp] theorem setpin_ie (s : State) : (setpin s).ie = s.ie := rfl
@[simp] theorem setpin_cyc (s : State) : (setpin s).cyc = s.cyc := rfl
@[simp] theorem setpin_trace (s : State) : (setpin s).trace = if s.lastPin = some s.eff then s.trace else s.trace ++ [(s.cyc, s.eff)] := rfl
@[simp] theorem setpin_inputs (s : State) : (setpin s).inputs = s.inputs := rfl
@[simp] theorem setpin_hostKind (s : State) : (setpin s).hostKind = s.hostKind := rfl
@[simp] theorem setpin_hostReads (s : State) : (setpin s).hostReads = s.hostReads := rfl
@[simp] theorem setpin_draws (s : State) : (setpin s).draws = s.draws := rfl

/-! overrun -/

@[simp] theorem overrun_dir (s : State) : (overrun s).dir = s.dir := rfl
@[simp] theorem overrun_level (s : State) : (overrun s).level = s.level := rfl
@[simp] theorem overrun_fIllegal (s : State) : (overrun s).fIllegal = s.fIllegal := rfl
@[simp] theorem overrun_fNoinit (s : State) : (overrun s).fNoinit = s.fNoinit := rfl
@[simp] theorem overrun_fOverrun (s : State) : (overrun s).fOverrun = true := rfl
@[simp] theorem overrun_pending (s : State) : (overrun s).pending = s.pending := rfl
@[simp] theorem overrun_ie (s : State) : (overrun s).ie = s.ie := rfl
@[simp] theorem overrun_cyc (s : State) : (overrun s).cyc = s.cyc := rfl
@[simp] theorem overrun_trace (s : State) : (overrun s).trace = s.trace := rfl
@[simp] theorem overrun_inputs (s : State) : (overrun s).inputs = s.inputs := rfl
@[simp] theorem overrun_hostKind (s : State) : (overrun s).hostKind = s.hostKind := rfl
@[simp] theorem overrun_hostReads (s : State) : (overrun s).hostReads = s.hostReads := rfl
@[simp] theorem overrun_draws (s : State) : (overrun s).draws = s.draws := rfl

/-! illegal -/

@[simp] theorem illegal_dir (c : Config) (s : State) : (illegal c s).dir = s.dir := rfl
@[simp] theorem illegal_level (c : Config) (s : State) : (illegal c s).level = s.level := rfl
@[simp] theorem illegal_fIllegal (c : Config) (s : State) : (illegal c s).fIllegal = true := rfl
@[simp] theorem illegal_fNoinit (c : Config) (s : State) : (illegal c s).fNoinit = s.fNoinit := rfl
@[simp] theorem illegal_fOverrun (c : Config) (s : State) : (illegal c s).fOverrun = s.fOverrun := rfl
@[simp] theorem illegal_pending (c : Config) (s : State) : (illegal c s).pending = [.uWAIT c.cCmd] := rfl
@[simp] theorem illegal_ie (c : Config) (s : State) : (illegal c s).ie = s.ie := rfl
@[simp] theorem illegal_cyc (c : Config) (s : State) : (illegal c s).cyc = s.cyc := rfl
@[simp] theorem illegal_trace (c : Config) (s : State) : (illegal c s).trace = s.trace := rfl
@[simp] theorem illegal_inputs (c : Config) (s : State) : (illegal c s).inputs = s.inputs := rfl
@[simp] theorem illegal_hostKind (c : Config) (s : State) : (illegal c s).hostKind = s.hostKind := rfl
@[simp] theorem illegal_hostReads (c : Config) (s : State) : (illegal c s).hostReads = s.hostReads := rfl
@[simp] theorem illegal_draws (c : Config) (s : State) : (illegal c s).draws = s.draws := rfl

/-! noinit -/

@[simp] theorem noinit_dir (c : Config) (s : State) : (noinit c s).dir = s.dir := rfl
@[simp] theorem noinit_level (c : Config) (s : State) : (noinit c s).level = s.level := rfl
@[simp] theorem noinit_fIllegal (c : Config) (s : State) : (noinit c s).fIllegal = s.fIllegal := rfl
@[simp] theorem noinit_fNoinit (c : Config) (s : State) : (noinit c s).fNoinit = true := rfl
@[simp] theorem noinit_fOverrun (c : Config) (s : State) : (noinit c s).fOverrun = s.fOverrun := rfl
@[simp] theorem noinit_pending (c : Config) (s : State) : (noinit c s).pending = [.uWAIT c.cCmd] := rfl
@[simp] theorem noinit_ie (c : Config) (s : State) : (noinit c s).ie = s.ie := rfl
@[simp] theorem noinit_cyc (c : Config) (s : State) : (noinit c s).cyc = s.cyc := rfl
@[simp] theorem noinit_trace (c : Config) (s : State) : (noinit c s).trace = s.trace := rfl
@[simp] theorem noinit_inputs (c : Config) (s : State) : (noinit c s).inputs = s.inputs := rfl
@[simp] theorem noinit_hostKind (c : Config) (s : State) : (noinit c s).hostKind = s.hostKind := rfl
@[simp] theorem noinit_hostReads (c : Config) (s : State) : (noinit c s).hostReads = s.hostReads := rfl
@[simp] theorem noinit_draws (c : Config) (s : State) : (noinit c s).draws = s.draws := rfl

/-! returnRead -/

@[simp] theorem returnRead_dir (v : Word) (s : State) : (returnRead v s).dir = s.dir := rfl
@[simp] theorem returnRead_level (v : Word) (s : State) : (returnRead v s).level = s.level := rfl
@[simp] theorem returnRead_fIllegal (v : Word) (s : State) : (returnRead v s).fIllegal = s.fIllegal := rfl
@[simp] theorem returnRead_fNoinit (v : Word) (s : State) : (returnRead v s).fNoinit = s.fNoinit := rfl
@[simp] theorem returnRead_fOverrun (v : Word) (s : State) : (returnRead v s).fOverrun = s.fOverrun := rfl
@[simp] theorem returnRead_pending (v : Word) (s : State) : (returnRead v s).pending = s.pending := rfl
@[simp] theorem returnRead_ie (v : Word) (s : State) : (returnRead v s).ie = s.ie := rfl
@[simp] theorem returnRead_cyc (v : Word) (s : State) : (returnRead v s).cyc = s.cyc := rfl
@[simp] theorem returnRead_trace (v : Word) (s : State) : (returnRead v s).trace = s.trace := rfl
@[simp] theorem returnRead_inputs (v : Word) (s : State) : (returnRead v s).inputs = s.inputs := rfl
@[simp] theorem returnRead_hostKind (v : Word) (s : State) : (returnRead v s).hostKind = s.hostKind := rfl
@[simp] theorem returnRead_hostReads (v : Word) (s : State) : (returnRead v s).hostReads = s.hostReads ++ [v] := rfl
@[simp] theorem returnRead_draws (v : Word) (s : State) : (returnRead v s).draws = s.draws := rfl

/-! execMicro -/

@[simp] theorem execMicro_fIllegal (c : Config) (op : MicroOp) (s : State) : (execMicro c op s).fIllegal = s.fIllegal := by cases op <;> simp [execMicro]
@[simp] theorem execMicro_fNoinit (c : Config) (op : MicroOp) (s : State) : (execMicro c op s).fNoinit = s.fNoinit := by cases op <;> simp [execMicro]
@[simp] theorem execMicro_fOverrun (c : Config) (op : MicroOp) (s : State) : (execMicro c op s).fOverrun = s.fOverrun := by cases op <;> simp [execMicro]
@[simp] theorem execMicro_pending (c : Config) (op : MicroOp) (s : State) : (execMicro c op s).pending = s.pending := by cases op <;> simp [execMicro]
@[simp] theorem execMicro_ie (c : Config) (op : MicroOp) (s : State) : (execMicro c op s).ie = s.ie := by cases op <;> simp [execMicro]
@[simp] theorem execMicro_cyc (c : Config) (op : MicroOp) (s : State) : (execMicro c op s).cyc = s.cyc + op.cost c := by
  cases op <;> simp [execMicro, MicroOp.cost]
@[simp] theorem execMicro_inputs (c : Config) (op : MicroOp) (s : State) : (execMicro c op s).inputs = s.inputs := by cases op <;> simp [execMicro]
@[simp] theorem execMicro_hostKind (c : Config) (op : MicroOp) (s : State) : (execMicro c op s).hostKind = s.hostKind := by cases op <;> simp [execMicro]
@[simp] theorem execMicro_hostReads (c : Config) (op : MicroOp) (s : State) : (execMicro c op s).hostReads = s.hostReads := by cases op <;> simp [execMicro]
@[simp] theorem execMicro_draws (c : Config) (op : MicroOp) (s : State) : (execMicro c op s).draws = s.draws := by cases op <;> simp [execMicro]

/-! seqStep -/

@[simp] theorem seqStep_fIllegal (c : Config) (st : Nat) (s : State) : (seqStep c st s).fIllegal = s.fIllegal := by unfold seqStep; split <;> simp [*]
@[simp] theorem seqStep_fNoinit (c : Config) (st : Nat) (s : State) : (seqStep c st s).fNoinit = s.fNoinit := by unfold seqStep; split <;> simp [*]
@[simp] theorem seqStep_fOverrun (c : Config) (st : Nat) (s : State) : (seqStep c st s).fOverrun = s.fOverrun := by unfold seqStep; split <;> simp [*]
@[simp] theorem seqStep_pending (c : Config) (st : Nat) (s : State) : (seqStep c st s).pending = s.pending.tail := by unfold seqStep; split <;> simp [*]
@[simp] theorem seqStep_ie (c : Config) (st : Nat) (s : State) : (seqStep c st s).ie = s.ie := by unfold seqStep; split <;> simp [*]
@[simp] theorem seqStep_inputs (c : Config) (st : Nat) (s : State) : (seqStep c st s).inputs = s.inputs := by unfold seqStep; split <;> simp [*]
@[simp] theorem seqStep_hostKind (c : Config) (st : Nat) (s : State) : (seqStep c st s).hostKind = s.hostKind := by unfold seqStep; split <;> simp [*]
@[simp] theorem seqStep_hostReads (c : Config) (st : Nat) (s : State) : (seqStep c st s).hostReads = s.hostReads := by unfold seqStep; split <;> simp [*]
@[simp] theorem seqStep_draws (c : Config) (st : Nat) (s : State) : (seqStep c st s).draws = s.draws := by unfold seqStep; split <;> simp [*]

/-! seqStepDrawn -/

@[simp] theorem seqStepDrawn_fIllegal (c : Config) (s : State) : (seqStepDrawn c s).fIllegal = s.fIllegal := by unfold seqStepDrawn; split <;> simp
@[simp] theorem seqStepDrawn_fNoinit (c : Config) (s : State) : (seqStepDrawn c s).fNoinit = s.fNoinit := by unfold seqStepDrawn; split <;> simp
@[simp] theorem seqStepDrawn_fOverrun (c : Config) (s : State) : (seqStepDrawn c s).fOverrun = s.fOverrun := by unfold seqStepDrawn; split <;> simp
@[simp] theorem seqStepDrawn_pending (c : Config) (s : State) : (seqStepDrawn c s).pending = s.pending.tail := by unfold seqStepDrawn; split <;> simp
@[simp] theorem seqStepDrawn_ie (c : Config) (s : State) : (seqStepDrawn c s).ie = s.ie := by unfold seqStepDrawn; split <;> simp
@[simp] theorem seqStepDrawn_inputs (c : Config) (s : State) : (seqStepDrawn c s).inputs = s.inputs := by unfold seqStepDrawn; split <;> simp
@[simp] theorem seqStepDrawn_hostKind (c : Config) (s : State) : (seqStepDrawn c s).hostKind = s.hostKind := by unfold seqStepDrawn; split <;> simp
@[simp] theorem seqStepDrawn_hostReads (c : Config) (s : State) : (seqStepDrawn c s).hostReads = s.hostReads := by unfold seqStepDrawn; split <;> simp

/-! doReset -/

@[simp] theorem doReset_dir (s : State) : (doReset s).dir = .IN := by simp [doReset]
@[simp] theorem doReset_level (s : State) : (doReset s).level = false := by simp [doReset]
@[simp] theorem doReset_fIllegal (s : State) : (doReset s).fIllegal = false := by simp [doReset]
@[simp] theorem doReset_fNoinit (s : State) : (doReset s).fNoinit = false := by simp [doReset]
@[simp] theorem doReset_fOverrun (s : State) : (doReset s).fOverrun = false := by simp [doReset]
@[simp] theorem doReset_pending (s : State) : (doReset s).pending = [] := by simp [doReset]
@[simp] theorem doReset_ie (s : State) : (doReset s).ie = false := by simp [doReset]
@[simp] theorem doReset_cyc (s : State) : (doReset s).cyc = s.cyc := by simp [doReset]
@[simp] theorem doReset_trace (s : State) : (doReset s).trace = if s.lastPin = some .Z then s.trace else s.trace ++ [(s.cyc, .Z)] := by
  simp only [doReset, setpin_trace]; rfl
@[simp] theorem doReset_inputs (s : State) : (doReset s).inputs = s.inputs := by simp [doReset]
@[simp] theorem doReset_hostKind (s : State) : (doReset s).hostKind = s.hostKind := by simp [doReset]
@[simp] theorem doReset_hostReads (s : State) : (doReset s).hostReads = s.hostReads := by simp [doReset]
@[simp] theorem doReset_draws (s : State) : (doReset s).draws = s.draws := by simp [doReset]

/-! runOps -/

@[simp] theorem runOps_fIllegal (c : Config) (ops : List MicroOp) (s : State) : (runOps c ops s).fIllegal = s.fIllegal := by
  induction ops generalizing s with
  | nil => rfl
  | cons op ops ih => simp [runOps, ih]
@[simp] theorem runOps_fNoinit (c : Config) (ops : List MicroOp) (s : State) : (runOps c ops s).fNoinit = s.fNoinit := by
  induction ops generalizing s with
  | nil => rfl
  | cons op ops ih => simp [runOps, ih]
@[simp] theorem runOps_fOverrun (c : Config) (ops : List MicroOp) (s : State) : (runOps c ops s).fOverrun = s.fOverrun := by
  induction ops generalizing s with
  | nil => rfl
  | cons op ops ih => simp [runOps, ih]
@[simp] theorem runOps_pending (c : Config) (ops : List MicroOp) (s : State) : (runOps c ops s).pending = s.pending := by
  induction ops generalizing s with
  | nil => rfl
  | cons op ops ih => simp [runOps, ih]
@[simp] theorem runOps_ie (c : Config) (ops : List MicroOp) (s : State) : (runOps c ops s).ie = s.ie := by
  induction ops generalizing s with
  | nil => rfl
  | cons op ops ih => simp [runOps, ih]
@[simp] theorem runOps_cyc (c : Config) (ops : List MicroOp) (s : State) : (runOps c ops s).cyc = s.cyc + dur c ops := by
  induction ops generalizing s with
  | nil => rfl
  | cons op ops ih => simp [runOps, ih, dur, Nat.add_assoc]
@[simp] theorem runOps_inputs (c : Config) (ops : List MicroOp) (s : State) : (runOps c ops s).inputs = s.inputs := by
  induction ops generalizing s with
  | nil => rfl
  | cons op ops ih => simp [runOps, ih]
@[simp] theorem runOps_hostKind (c : Config) (ops : List MicroOp) (s : State) : (runOps c ops s).hostKind = s.hostKind := by
  induction ops generalizing s with
  | nil => rfl
  | cons op ops ih => simp [runOps, ih]
@[simp] theorem runOps_hostReads (c : Config) (ops : List MicroOp) (s : State) : (runOps c ops s).hostReads = s.hostReads := by
  induction ops generalizing s with
  | nil => rfl
  | cons op ops ih => simp [runOps, ih]
@[simp] theorem runOps_draws (c : Config) (ops : List MicroOp) (s : State) : (runOps c ops s).draws = s.draws := by
  induction ops generalizing s with
  | nil => rfl
  | cons op ops ih => simp [runOps, ih]

/-! settle -/

@[simp] theorem settle_fIllegal (c : Config) (s : State) : (settle c s).fIllegal = s.fIllegal := by simp [settle]
@[simp] theorem settle_fNoinit (c : Config) (s : State) : (settle c s).fNoinit = s.fNoinit := by simp [settle]
@[simp] theorem settle_fOverrun (c : Config) (s : State) : (settle c s).fOverrun = s.fOverrun := by simp [settle]
@[simp] theorem settle_pending (c : Config) (s : State) : (settle c s).pending = [] := by simp [settle]
@[simp] theorem settle_ie (c : Config) (s : State) : (settle c s).ie = s.ie := by simp [settle]
@[simp] theorem settle_cyc (c : Config) (s : State) : (settle c s).cyc = s.cyc + dur c s.pending := by simp [settle]
@[simp] theorem settle_inputs (c : Config) (s : State) : (settle c s).inputs = s.inputs := by simp [settle]
@[simp] theorem settle_hostKind (c : Config) (s : State) : (settle c s).hostKind = s.hostKind := by simp [settle]
@[simp] theorem settle_hostReads (c : Config) (s : State) : (settle c s).hostReads = s.hostReads := by simp [settle]
@[simp] theorem settle_draws (c : Config) (s : State) : (settle c s).draws = s.draws := by simp [settle]

end Sys2Proof.Machine
end

