-- ==== Sys2Proof/Laws/Ops.lean ====
section
/-! SUPPORT. What each shared operation can do, said once: the acceptance of a command (30_encoding.md R80), the
sequencer's step (40_sequencer.md R101), the trace's update (10_state.md R33), and runs of micro-operations. -/

namespace Sys2Proof.Machine

/-! ## BUSY and the effective pin value -/

theorem busy_eq_false {s : State} : s.busy = false ↔ s.pending = [] := by
  cases h : s.pending <;> simp [State.busy, h]

theorem busy_eq_true {s : State} : s.busy = true ↔ s.pending ≠ [] := by
  cases h : s.pending <;> simp [State.busy, h]

theorem isOut_eq_true {d : Dir} : d.isOut = true ↔ d = .OUT := by cases d <;> simp [Dir.isOut]

theorem eff_out {s : State} (h : s.dir = .OUT) : s.eff = if s.level then .H else .L := by simp [State.eff, h]

theorem eff_in {s : State} (h : s.dir = .IN) : s.eff = .Z := by simp [State.eff, h]

/-! ## The acceptance of a command -/

theorem acceptCommand_busy {c : Config} {n : Bool} {ops : List MicroOp} {s : State} (h : s.pending ≠ []) :
    acceptCommand c n ops s = overrun s := by
  simp [acceptCommand, busy_eq_true.2 h]

theorem acceptCommand_noinit {c : Config} {ops : List MicroOp} {s : State} (h : s.pending = []) (hd : s.dir = .IN) :
    acceptCommand c true ops s = noinit c s := by
  simp [acceptCommand, busy_eq_false.2 h, hd, Dir.isOut]

theorem acceptCommand_start {c : Config} {n : Bool} {ops : List MicroOp} {s : State} (h : s.pending = [])
    (hn : n = false ∨ s.dir = .OUT) :
    acceptCommand c n ops s = { s with pending := .uWAIT c.cCmd :: ops } := by
  rcases hn with hn | hn <;> simp [acceptCommand, busy_eq_false.2 h, hn, Dir.isOut, dispatchWait]

/-- All that accepting a command can do. -/
theorem acceptCommand_cases (c : Config) (n : Bool) (ops : List MicroOp) (s : State) :
    (s.pending ≠ [] ∧ acceptCommand c n ops s = overrun s) ∨
    (s.pending = [] ∧ n = true ∧ s.dir = .IN ∧ acceptCommand c n ops s = noinit c s) ∨
    (s.pending = [] ∧ (n = false ∨ s.dir = .OUT) ∧
      acceptCommand c n ops s = { s with pending := .uWAIT c.cCmd :: ops }) := by
  by_cases h : s.pending = []
  · cases n with
    | false => exact .inr (.inr ⟨h, .inl rfl, acceptCommand_start h (.inl rfl)⟩)
    | true =>
      cases hd : s.dir with
      | IN => exact .inr (.inl ⟨h, rfl, rfl, acceptCommand_noinit h hd⟩)
      | OUT => exact .inr (.inr ⟨h, .inr rfl, by rw [acceptCommand_start h (.inr hd), ← hd]⟩)
  · exact .inl ⟨h, acceptCommand_busy h⟩

/-! ## The trace -/

theorem lastPin_append (s : State) (t : Nat) (p : Pin) (h : s.trace = tr ++ [(t, p)]) : s.lastPin = some p := by
  simp [State.lastPin, h]

theorem setpin_same {s : State} (h : s.lastPin = some s.eff) : setpin s = s := by simp [setpin, h]

theorem setpin_change {s : State} (h : s.lastPin ≠ some s.eff) :
    setpin s = { s with trace := s.trace ++ [(s.cyc, s.eff)] } := by simp [setpin, h]

@[simp] theorem setpin_eff (s : State) : (setpin s).eff = s.eff := rfl

/-- After `setpin()` the trace shows the effective pin value. -/
theorem setpin_shows (s : State) : (setpin s).lastPin = some s.eff := by
  by_cases h : s.lastPin = some s.eff
  · rw [setpin_same h, h]
  · rw [setpin_change h]; simp [State.lastPin]

@[simp] theorem advance_lastPin (n : Nat) (s : State) : (advance n s).lastPin = s.lastPin := rfl

@[simp] theorem advance_eff (n : Nat) (s : State) : (advance n s).eff = s.eff := rfl

theorem advance_advance (m n : Nat) (s : State) : advance n (advance m s) = advance (m + n) s := by
  simp [advance, Nat.add_assoc]

theorem advance_zero (s : State) : advance 0 s = s := rfl

/-! ## Runs of micro-operations -/

theorem runOps_append (c : Config) (xs ys : List MicroOp) (s : State) :
    runOps c (xs ++ ys) s = runOps c ys (runOps c xs s) := by
  induction xs generalizing s with
  | nil => rfl
  | cons op xs ih => exact ih _

theorem runOps_nops (c : Config) (n : Nat) (s : State) :
    runOps c (List.replicate n .uNOP) s = advance (n * c.cNop) s := by
  induction n generalizing s with
  | zero => simp [runOps, advance]
  | succ n ih =>
    rw [List.replicate_succ, runOps, ih, execMicro, advance_advance, Nat.succ_mul, Nat.add_comm]

theorem dur_append (c : Config) (xs ys : List MicroOp) : dur c (xs ++ ys) = dur c xs + dur c ys := by
  induction xs with
  | nil => simp [dur]
  | cons op xs ih => simp [dur, ih, Nat.add_assoc]

theorem seqStep_cons {c : Config} {st : Nat} {s : State} {op : MicroOp} {ops : List MicroOp}
    (h : s.pending = op :: ops) : seqStep c st s = { execMicro c op (advance st s) with pending := ops } := by
  simp [seqStep, h]

/-- Micro-operations do not read the pending list. -/
theorem execMicro_withPending (c : Config) (op : MicroOp) (ps : List MicroOp) (s : State) :
    execMicro c op { s with pending := ps } = { execMicro c op s with pending := ps } := by
  cases op <;> rfl

theorem runOps_withPending (c : Config) (ops ps : List MicroOp) (s : State) :
    runOps c ops { s with pending := ps } = { runOps c ops s with pending := ps } := by
  induction ops generalizing s with
  | nil => rfl
  | cons op ops ih => rw [runOps, execMicro_withPending, ih]; rfl

/-- Where the command in flight completes, by its micro-operations: the pending list itself plays no part. -/
theorem settle_withPending (c : Config) (s : State) (ops : List MicroOp) :
    settle c { s with pending := ops } = { runOps c ops s with pending := [] } := by
  simp only [settle, runOps_withPending]

end Sys2Proof.Machine
end

