-- ==== Sys2Proof/Laws/Moves.lean ====
section
/-! SUPPORT. The dispatch and the step: what a step can do, said once. -/

namespace Sys2Proof.Machine

/-- The machine's dispatch is the general one at the machine's configuration. -/
theorem exec_eq_execWith (i : Instr) (s : State) : exec i s = execWith cfg i s := by cases i <;> rfl

theorem exec_eq (i : Instr) (s : State) :
    exec i s = .next (acceptCommand cfg i.needsInit (expand cfg i) s) := exec_eq_execWith i s

/-- A command that is started: not busy, and an output where it needs one. -/
theorem exec_start {i : Instr} {s : State} (h : s.pending = []) (hn : i.needsInit = false ∨ s.dir = .OUT) :
    exec i s = .next { s with pending := .uWAIT cfg.cCmd :: expand cfg i } := by
  rw [exec_eq, acceptCommand_start h hn]

theorem exec_busy {i : Instr} {s : State} (h : s.pending ≠ []) : exec i s = .next (overrun s) := by
  rw [exec_eq, acceptCommand_busy h]

theorem exec_noinit {i : Instr} {s : State} (h : s.pending = []) (hn : i.needsInit = true) (hd : s.dir = .IN) :
    exec i s = .next (noinit cfg s) := by
  rw [exec_eq, hn, acceptCommand_noinit h hd]

theorem exec_funext : exec = execWith cfg := by funext i s; exact exec_eq_execWith i s

/-- The host's run is the general run at the machine's configuration. -/
theorem run_eq_runWith (n : Nat) (s : State) : Host.Core.run Sys2Proof.core n s = runWith cfg n s := by
  induction n generalizing s with
  | zero => rfl
  | succ n ih =>
    have hs : Sys2Proof.core.step s = stepWith cfg (execWith cfg) s := by rw [← exec_funext]; rfl
    simp only [Host.Core.run, runWith, hs]
    cases stepWith cfg (execWith cfg) s with
    | next t => exact ih t
    | fault r => rfl
    | refused r => rfl

/-- All that accepting a word can do. -/
theorem accept_cases (c : Config) (w : Word) (s : State) :
    (s.pending ≠ [] ∧ accept c (execWith c) w s = .next (overrun s)) ∨
    (s.pending = [] ∧ (∃ e, decode w = .error e) ∧ accept c (execWith c) w s = .next (illegal c s)) ∨
    (s.pending = [] ∧ ∃ i, decode w = .ok i ∧
      accept c (execWith c) w s = .next (acceptCommand c i.needsInit (expand c i) s)) := by
  by_cases h : s.pending = []
  · have hb := busy_eq_false.2 h
    cases hd : decode w with
    | error e => exact .inr (.inl ⟨h, ⟨e, rfl⟩, by simp [accept, hb, hd]⟩)
    | ok i => exact .inr (.inr ⟨h, i, rfl, by simp [accept, hb, hd, execWith]⟩)
  · exact .inl ⟨h, by simp [accept, busy_eq_true.2 h]⟩

theorem step_eq (s : State) : step s = stepWith cfg (execWith cfg) s := by rw [← exec_funext]; rfl

/-- The sequencer's own step. -/
theorem stepWith_sequencer {c : Config} {ex : Instr → State → Outcome} {s : State} (h : sequencerMoves s = true) :
    stepWith c ex s = .next (seqStepDrawn c s) := by simp [stepWith, h]

/-- The step that makes the next move. -/
theorem stepWith_move {c : Config} {ex : Instr → State → Outcome} {s : State} {m : Move} {rest : List Move}
    (hi : s.inputs = m :: rest) (h : sequencerMoves s = false) :
    stepWith c ex s = applyMove c ex m { s with inputs := rest } := by
  simp [stepWith, h, hi]

/-- A move that waits only while busy is made when the block is not busy. -/
theorem sequencerMoves_idle {s : State} (h : s.pending = []) : sequencerMoves s = false := by
  simp [sequencerMoves, busy_eq_false.2 h]

theorem sequencerMoves_ready {s : State} {m : Move} {rest : List Move} (hi : s.inputs = m :: rest)
    (h : s.pending = [] ∨ m.hostWaits s.hostKind = false) : sequencerMoves s = false := by
  rcases h with h | h
  · exact sequencerMoves_idle h
  · simp [sequencerMoves, hi, h]

theorem sequencerMoves_waiting {s : State} {m : Move} {rest : List Move} (hi : s.inputs = m :: rest)
    (hb : s.pending ≠ []) (h : m.hostWaits s.hostKind = true) : sequencerMoves s = true := by
  simp [sequencerMoves, hi, h, busy_eq_true.2 hb]

/-- All that a step which answers a next state can be: the sequencer's own, or a move. -/
theorem stepWith_next {c : Config} {ex : Instr → State → Outcome} {s t : State} (h : stepWith c ex s = .next t) :
    (sequencerMoves s = true ∧ t = seqStepDrawn c s) ∨
    ∃ m rest, s.inputs = m :: rest ∧ (s.pending = [] ∨ m.hostWaits s.hostKind = false) ∧
      applyMove c ex m { s with inputs := rest } = .next t := by
  unfold stepWith at h
  split at h
  · exact .inl ⟨‹_›, by cases h; rfl⟩
  · rename_i hs
    split at h
    · cases h
    · rename_i m rest hi
      refine .inr ⟨m, rest, hi, ?_, h⟩
      by_cases hp : s.pending = []
      · exact .inl hp
      · right
        simpa [sequencerMoves, hi, busy_eq_true.2 hp] using hs

end Sys2Proof.Machine
end

