-- ==== Sys2Proof/Laws/PerInstr.lean ====
section
/-! SUPPORT. What holds of every command as it is written, one lemma a constructor: its word is legal, carries its
opcode and leaves the reserved field 0 (30_encoding.md R70, R72, R73, R76). -/

/-- The word of the command is legal and selected by the command's own opcode. -/
def Sys2Proof.Laws.EncodeLegal.Statement (i : Sys2Proof.Instr) : Prop :=
  Sys2Proof.Legal (Sys2Proof.encode i) = true ∧ Sys2Proof.opField (Sys2Proof.encode i) = i.opcode ∧
    Sys2Proof.rsvField (Sys2Proof.encode i) = 0

namespace Sys2Proof.Laws.EncodeLegal

theorem nop : Statement .nop := by unfold Statement; decide

theorem pinOutput : Statement .pinOutput := by unfold Statement; decide

theorem pinHigh : Statement .pinHigh := by unfold Statement; decide

theorem pinLow : Statement .pinLow := by unfold Statement; decide

theorem delayUs (u : Micros) : Statement (.delayUs u) := by
  refine ⟨?_, opField_packWord _ _, rsvField_packWord _ _⟩
  simpa [Legal, encode, opField_packWord, rsvField_packWord, argField_packWord, Instr.opcode, Instr.argument] using
    low16_high u

theorem init : Statement .init := by unfold Statement; decide

theorem emitBit (v : Bool) : Statement (.emitBit v) := by cases v <;> unfold Statement <;> decide

theorem emitByte (x : Byte) : Statement (.emitByte x) := by
  refine ⟨?_, opField_packWord _ _, rsvField_packWord _ _⟩
  simpa [Legal, encode, opField_packWord, rsvField_packWord, argField_packWord, Instr.opcode, Instr.argument] using
    low8_high x

theorem sendPixel (g r b : Byte) : Statement (.sendPixel g r b) := by
  refine ⟨?_, opField_packWord _ _, rsvField_packWord _ _⟩
  simp [Legal, encode, opField_packWord, rsvField_packWord, Instr.opcode]

theorem latch : Statement .latch := by unfold Statement; decide

end Sys2Proof.Laws.EncodeLegal
end

