-- ==== Sys2Proof/Laws/Run.lean ====
section
/-! SUPPORT. The end of a run, unfolded once: at a state where a run ends it has ended, anywhere else it goes on with the
step (60_exceptions.md R220). -/

namespace Sys2Proof.Machine

theorem runEnds_pending {s : State} (h : s.runEnds = true) : s.pending = [] := by
  simp only [State.runEnds, Bool.and_eq_true, Bool.not_eq_true'] at h
  exact busy_eq_false.1 h.2

/-- With no move left and nothing pending a run ends. -/
theorem runEnds_of_nil {s : State} (hi : s.inputs = []) (hp : s.pending = []) : s.runEnds = true := by
  simp [State.runEnds, State.hostDone, hi, busy_eq_false.2 hp]

theorem runEnd_here {c : Config} {s : State} (n : Nat) (h : s.runEnds = true) : runEnd c n s = some s := by
  cases n <;> simp [runEnd, h]

theorem runEnd_next {c : Config} {s t : State} (n : Nat) (h : s.runEnds = false)
    (hs : stepWith c (execWith c) s = .next t) : runEnd c (n + 1) s = runEnd c n t := by
  simp [runEnd, h, hs]

end Sys2Proof.Machine
end

