-- ==== Sys2Proof/Laws/Step.lean ====
section
/-! SUPPORT. What a step can do, said once: every next state of a step is one of these, with what held before it. Every
whole-machine rule is a case analysis over `StepEffect`. -/

namespace Sys2Proof.Machine

/-- All that one step over the configuration `c` can answer from `s`. -/
inductive StepEffect (c : Config) (s : State) : State → Prop where
  /-- The sequencer's step with the stall `st` (40_sequencer.md R101). -/
  | sequencer (st : Nat) (ins : List Move) (n : Nat) (hs : s.sequencerNext = true) (hr : s.resetNext = false)
      (hp : s.pending ≠ []) (hst : st = 0 ∨ s.ie = true) (hi : ∀ m ∈ ins, m ∈ s.inputs) :
      StepEffect c s { seqStep c st s with inputs := ins, draws := n }
  /-- A write to CMD while busy, by an asynchronous host (60_exceptions.md R204). -/
  | overrun (m : Move) (rest : List Move) (hi : s.inputs = m :: rest) (hr : s.resetNext = false)
      (hp : s.pending ≠ []) (hk : s.hostKind = .async) : StepEffect c s { overrun s with inputs := rest }
  /-- An illegal word written while not busy (60_exceptions.md R202). -/
  | illegal (m : Move) (rest : List Move) (hi : s.inputs = m :: rest) (hr : s.resetNext = false)
      (hp : s.pending = []) : StepEffect c s { illegal c s with inputs := rest }
  /-- An emission command before INIT (60_exceptions.md R203). -/
  | noinit (m : Move) (rest : List Move) (hi : s.inputs = m :: rest) (hr : s.resetNext = false)
      (hp : s.pending = []) (hd : s.dir = .IN) : StepEffect c s { noinit c s with inputs := rest }
  /-- A command started (30_encoding.md R80). -/
  | start (m : Move) (rest : List Move) (ops : List MicroOp) (hi : s.inputs = m :: rest) (hr : s.resetNext = false)
      (hp : s.pending = []) : StepEffect c s { s with inputs := rest, pending := ops }
  /-- A read (20_memory.md R55). -/
  | read (m : Move) (rest : List Move) (v : Word) (hi : s.inputs = m :: rest) (hr : s.resetNext = false) :
      StepEffect c s { returnRead v s with inputs := rest }
  /-- A write to STATUS (20_memory.md R56). -/
  | ignored (m : Move) (rest : List Move) (hi : s.inputs = m :: rest) (hr : s.resetNext = false) :
      StepEffect c s { s with inputs := rest }
  /-- The host idles (60_exceptions.md R215). -/
  | idle (n : Nat) (rest : List Move) (hi : s.inputs = .idle n :: rest) (hr : s.resetNext = false)
      (hp : s.pending = []) : StepEffect c s { advance n s with inputs := rest }
  /-- The host sets the interrupt enable (60_exceptions.md R215). -/
  | setIE (b : Bool) (rest : List Move) (hi : s.inputs = .setIE b :: rest) (hr : s.resetNext = false)
      (hp : s.pending = []) : StepEffect c s { s with inputs := rest, ie := b }
  /-- A reset (70_reset_and_hazards.md R240). -/
  | reset (rest : List Move) (hi : s.inputs = .reset :: rest) : StepEffect c s { doReset s with inputs := rest }
  /-- A reset inside a micro-operation (70_reset_and_hazards.md R241). -/
  | resetAt (d : Nat) (rest : List Move) (hi : s.inputs = .resetAt d :: rest) :
      StepEffect c s { doResetAt d s with inputs := rest }

theorem busy_withInputs (s : State) (ins : List Move) : ({ s with inputs := ins } : State).busy = s.busy := rfl

theorem sequencerMoves_busy {s : State} (h : sequencerMoves s = true) : s.pending ≠ [] := by
  simp only [sequencerMoves, Bool.and_eq_true] at h
  exact busy_eq_true.1 h.1

theorem sequencerMoves_noReset {s : State} (h : sequencerMoves s = true) : s.resetNext = false := by
  simp only [sequencerMoves, Bool.and_eq_true] at h
  unfold State.resetNext
  split <;> simp_all [Move.hostWaits]

/-- The sequencer's own step, whatever the interrupt enable. -/
theorem seqStepDrawn_effect {c : Config} {s : State} (h : sequencerMoves s = true) : StepEffect c s (seqStepDrawn c s) := by
  have hs : s.sequencerNext = true := by simp [State.sequencerNext, h]
  by_cases hie : s.ie = true
  · have := StepEffect.sequencer (c := c) (Config.stallDraw s.draws) s.inputs (s.draws + 1) hs
      (sequencerMoves_noReset h) (sequencerMoves_busy h) (.inr hie) (fun _ hm => hm)
    rw [show seqStepDrawn c s = { seqStep c (Config.stallDraw s.draws) s with inputs := s.inputs, draws := s.draws + 1 } by
      simp only [seqStepDrawn, if_pos hie]; apply State.ext <;> simp]
    exact this
  · have := StepEffect.sequencer (c := c) 0 s.inputs s.draws hs
      (sequencerMoves_noReset h) (sequencerMoves_busy h) (.inl rfl) (fun _ hm => hm)
    rw [show seqStepDrawn c s = { seqStep c 0 s with inputs := s.inputs, draws := s.draws } by
      simp only [seqStepDrawn, if_neg hie]; apply State.ext <;> simp]
    exact this

/-- The acceptance of a word by a move that is no reset; while busy, only an asynchronous host makes it. -/
theorem accept_effect {c : Config} {s t : State} {m : Move} {rest : List Move} {w : Word}
    (hi : s.inputs = m :: rest) (hr : s.resetNext = false) (hk : s.pending = [] ∨ s.hostKind = .async)
    (h : accept c (execWith c) w { s with inputs := rest } = .next t) : StepEffect c s t := by
  rcases accept_cases c w { s with inputs := rest } with ⟨hp, e⟩ | ⟨hp, _, e⟩ | ⟨hp, i, _, e⟩
  · rw [e] at h; cases h
    exact .overrun m rest hi hr hp (hk.resolve_left hp)
  · rw [e] at h; cases h
    exact .illegal m rest hi hr hp
  · rw [e] at h; cases h
    rcases acceptCommand_cases c i.needsInit (expand c i) { s with inputs := rest } with
      ⟨hp', _⟩ | ⟨_, _, hd, e'⟩ | ⟨_, _, e'⟩
    · exact absurd hp hp'
    · rw [e']; exact .noinit m rest hi hr hp hd
    · rw [e']; exact .start m rest _ hi hr hp

/-- Every next state of a step is one of the effects. -/
theorem stepWith_effect {c : Config} {s t : State} (h : stepWith c (execWith c) s = .next t) : StepEffect c s t := by
  rcases stepWith_next h with ⟨hs, rfl⟩ | ⟨m, rest, hi, hw, ha⟩
  · exact seqStepDrawn_effect hs
  have hkind : m.hostWaits s.hostKind = (s.hostKind == .sync) → s.pending = [] ∨ s.hostKind = .async := by
    intro e; rw [e] at hw; refine hw.imp_right fun h => ?_
    cases hk : s.hostKind <;> simp_all
  cases m with
  | issue w => exact accept_effect hi (by simp [State.resetNext, hi]) (hw.imp_right fun h => by simp [Move.hostWaits] at h) ha
  | issueBusy w =>
    simp only [applyMove] at ha
    split at ha
    · rename_i hb
      simp only [Bool.and_eq_true, beq_iff_eq] at hb
      exact accept_effect hi (by simp [State.resetNext, hi]) (.inr hb.2) ha
    · cases ha
  | readStatus => cases ha; exact .read _ rest _ hi (by simp [State.resetNext, hi])
  | regRead off width =>
    simp only [applyMove] at ha
    split at ha <;> cases ha
    exact .read _ rest _ hi (by simp [State.resetNext, hi])
  | regWrite off width w =>
    simp only [applyMove] at ha
    split at ha
    · exact accept_effect hi (by simp [State.resetNext, hi]) (hkind rfl) ha
    · cases ha; exact .ignored _ rest hi (by simp [State.resetNext, hi])
    · cases ha
  | idle n => cases ha; exact .idle n rest hi (by simp [State.resetNext, hi]) (hw.resolve_right (by simp [Move.hostWaits]))
  | setIE b => cases ha; exact .setIE b rest hi (by simp [State.resetNext, hi]) (hw.resolve_right (by simp [Move.hostWaits]))
  | seq st =>
    simp only [applyMove] at ha
    split at ha <;> cases ha
    rename_i he
    simp only [seqEnabled, Bool.and_eq_true, Bool.or_eq_true, beq_iff_eq, busy_withInputs] at he
    have hp := busy_eq_true.1 he.1
    have := StepEffect.sequencer (c := c) st rest s.draws (by simp [State.sequencerNext, hi])
      (by simp [State.resetNext, hi]) hp he.2 (fun m hm => by rw [hi]; exact List.mem_cons_of_mem _ hm)
    rw [show seqStep c st { s with inputs := rest } = { seqStep c st s with inputs := rest, draws := s.draws } by
      obtain ⟨op, ops, ho⟩ := List.exists_cons_of_ne_nil hp
      rw [seqStep_cons (s := s) ho, seqStep_cons (s := { s with inputs := rest }) ho]
      cases op <;> rfl]
    exact this
  | reset => cases ha; exact .reset rest hi
  | resetAt d =>
    simp only [applyMove] at ha
    split at ha <;> cases ha
    exact .resetAt d rest hi

theorem step_effect {s t : State} (h : step s = .next t) : StepEffect cfg s t :=
  stepWith_effect (step_eq s ▸ h)

end Sys2Proof.Machine
end

