-- ==== Sys2Proof/Tests/Slice0.lean ====
section
/-! SUPPORT. Tests with expected results from spec/95_test_vectors.md and from the encoding tables of 30_encoding.md, each
of one command on a small state over REF16; and for every statement with hypotheses a witness that meets them. -/

namespace Sys2Proof.Tests

open Sys2Proof Sys2Proof.Machine

/-! ## Well-formedness: one ill-formed line for each check (30_encoding.md R73, R79) -/

theorem test_illformed_delayUs : AsmLine.wellFormed (.delayUs 65536) = false := by decide
theorem test_illformed_emitBit : AsmLine.wellFormed (.emitBit 2) = false := by decide
theorem test_illformed_emitByte : AsmLine.wellFormed (.emitByte 256) = false := by decide
theorem test_illformed_sendPixel_green : AsmLine.wellFormed (.sendPixel 256 0 0) = false := by decide
theorem test_illformed_sendPixel_red : AsmLine.wellFormed (.sendPixel 0 256 0) = false := by decide
theorem test_illformed_sendPixel_blue : AsmLine.wellFormed (.sendPixel 0 0 256) = false := by decide
theorem test_illformed_emitPixel : AsmLine.wellFormed (.emitPixel 256 256 256) = false := by decide
theorem test_illformed_pixelRgb : AsmLine.wellFormed (.pixelRgb 0 0 256) = false := by decide
theorem test_illformed_rawWord : AsmLine.wellFormed (.rawWord 0x100000000) = false := by decide
theorem test_wellformed_limits :
    AsmLine.wellFormed (.delayUs 65535) ∧ AsmLine.wellFormed (.emitBit 1) ∧ AsmLine.wellFormed (.emitByte 255) ∧
      AsmLine.wellFormed (.sendPixel 255 255 255) ∧ AsmLine.wellFormed (.rawWord 0xFFFFFFFF) := by decide

/-! ## Decoding: a word of each command, written out bit by bit from 30_encoding.md R70, R72, R73 -/

theorem test_decode_nop : decode 0b0000_0000_000000000000000000000000 = .ok .nop := by decide
theorem test_decode_pinOutput : decode 0b0001_0000_000000000000000000000000 = .ok .pinOutput := by decide
theorem test_decode_pinHigh : decode 0b0010_0000_000000000000000000000000 = .ok .pinHigh := by decide
theorem test_decode_pinLow : decode 0b0011_0000_000000000000000000000000 = .ok .pinLow := by decide
theorem test_decode_delayUs : decode 0b0100_0000_00000000_1000000000000001 = .ok (.delayUs 0x8001) := by decide
theorem test_decode_init : decode 0b0101_0000_000000000000000000000000 = .ok .init := by decide
theorem test_decode_emitBit : decode 0b0110_0000_00000000000000000000000_1 = .ok (.emitBit true) := by decide
theorem test_decode_emitByte : decode 0b0111_0000_0000000000000000_10110000 = .ok (.emitByte 0xB0) := by decide
theorem test_decode_sendPixel :
    decode 0b1000_0000_00010100_00001010_00011110 = .ok (.sendPixel 20 10 30) := by decide
theorem test_decode_latch : decode 0b1001_0000_000000000000000000000000 = .ok .latch := by decide

/-- The illegal words of 95_test_vectors.md 2.1, each refused by the name of what is wrong. -/
theorem test_decode_illegal :
    decode 0x00000001 = .error .argumentField ∧ decode 0x01000000 = .error .reservedField ∧
      decode 0x40010000 = .error .argumentField ∧ decode 0x5000000F = .error .argumentField ∧
      decode 0x60000002 = .error .argumentField ∧ decode 0x70000100 = .error .argumentField ∧
      decode 0x71000000 = .error .reservedField ∧ decode 0x81000000 = .error .reservedField ∧
      decode 0x90000001 = .error .argumentField ∧ decode 0xA0000000 = .error .reservedOpcode ∧
      decode 0xF0000000 = .error .reservedOpcode := by decide

/-! ## The assembler's text (95_test_vectors.md 2.1) -/

theorem test_asm_named_any_order :
    assembleText ["SEND_PIXEL b=30, g=20, r=10".toList] = some [0x80140A1E] := by decide
theorem test_asm_emitPixel_named :
    assembleText ["EMIT_PIXEL g=20, r=10, b=30".toList] = some [0x80140A1E] := by decide
theorem test_asm_positional : assembleText ["SEND_PIXEL 20, 10, 30".toList] = some [0x80140A1E] := by decide
theorem test_asm_pixelRgb : assembleText ["PIXEL_RGB 10, 20, 30".toList] = some [0x80140A1E] := by decide
theorem test_asm_delay : assembleText ["DELAY_US 60 ; the latch hold".toList] = some [0x4000003C] := by decide
theorem test_asm_number_forms :
    assembleText ["EMIT_BYTE 0xB0".toList, "EMIT_BYTE 0b10110000".toList] = some [0x700000B0, 0x700000B0] := by decide
theorem test_asm_refuses : assembleText ["EMIT_BIT 2".toList] = none ∧ assembleText ["EMIT_BYTE 256".toList] = none := by
  decide
theorem test_asm_nops : assembleText ["NOPS 3".toList] = some [0, 0, 0] := by decide
theorem test_disasm_illegal : (render (disassemble 0x5000000F)).toList = ".word 0x5000000F".toList := by decide
theorem test_disasm_pixel :
    (render (disassemble 0x80140A1E)).toList = "SEND_PIXEL g=20, r=10, b=30".toList := by decide

/-! ## One command each, over REF16 (95_test_vectors.md 2.2 to 2.7) -/

/-- After INIT from reset (V-INIT-1). -/
def ready : State := { State.reset with dir := .OUT, cyc := 8, trace := [(0, .Z), (6, .L)] }

/-- After INIT and PIN_HIGH (V-PRIM-1, step 2). -/
def readyHigh : State := { ready with level := true, cyc := 14, trace := [(0, .Z), (6, .L), (14, .H)] }

/-- Busy with a wait of three cycles, its host asynchronous. -/
def busy : State := { ready with pending := [.uWAIT 3, .uSETLO], hostKind := .async }

/-- The state in which a command accepted by `s` completes, over REF16 with no stall. -/
def completed (i : Instr) (s : State) : State :=
  match execWith Config.ref16 i s with
  | .next t => settle Config.ref16 t
  | .fault _ => s
  | .refused _ => s

/-- What a vector tells of a state: its time, its STATUS and the events appended. -/
def seen (t s : State) : Nat × Word × List (Nat × Pin) := (t.cyc, status t, t.trace.drop s.trace.length)

theorem test_nop : seen (completed .nop readyHigh) readyHigh = (19, 0x006, []) := by decide
theorem test_pinOutput : seen (completed .pinOutput .reset) .reset = (6, 0x002, [(6, .L)]) := by decide
theorem test_pinHigh : seen (completed .pinHigh ready) ready = (14, 0x006, [(14, .H)]) := by decide
theorem test_pinHigh_before_init : seen (completed .pinHigh .reset) .reset = (6, 0x004, []) := by decide
theorem test_pinLow :
    seen (completed .pinLow { readyHigh with cyc := 19 }) readyHigh = (25, 0x002, [(25, .L)]) := by decide
theorem test_delayUs : seen (completed (.delayUs 1) { ready with cyc := 25 }) ready = (45, 0x002, []) := by decide
theorem test_delayUs_limit : (completed (.delayUs 65535) .reset).cyc = 1048564 := by decide
theorem test_init : seen (completed .init .reset) .reset = (8, 0x002, [(6, .L)]) := by decide
theorem test_init_after_pinHigh :
    seen (completed .init { State.reset with level := true, cyc := 6 }) .reset =
      (14, 0x002, [(12, .H), (14, .L)]) := by decide
theorem test_emitBit : seen (completed (.emitBit true) ready) ready = (28, 0x002, [(14, .H), (25, .L)]) := by decide
theorem test_emitBit_while_high :
    seen (completed (.emitBit false) readyHigh) readyHigh = (34, 0x002, [(26, .L)]) := by decide
theorem test_emitByte_b0 :
    seen (completed (.emitByte 0xB0) ready) ready =
      (172, 0x002, [(18, .H), (29, .L), (38, .H), (44, .L), (58, .H), (69, .L), (78, .H), (89, .L), (98, .H), (104, .L),
        (118, .H), (124, .L), (138, .H), (144, .L), (158, .H), (164, .L)]) := by decide
theorem test_emitByte_last_bit :
    ((completed (.emitByte 0x01) ready).trace.drop 16) = [(158, .H), (169, .L)] := by decide
theorem test_sendPixel_end : (completed (.sendPixel 20 10 30) ready).cyc = 498 := by decide +kernel
theorem test_sendPixel_byte_boundary :
    ((completed (.sendPixel 20 10 30) ready).trace.drop 16).take 4 =
      [(160, .H), (166, .L), (182, .H), (188, .L)] := by decide +kernel
theorem test_latch : seen (completed .latch { ready with cyc := 172 }) ready = (1138, 0x002, []) := by decide
theorem test_latch_while_high : seen (completed .latch readyHigh) readyHigh = (980, 0x002, [(20, .L)]) := by decide

/-! ## Faults, reset, stall, the receiver (95_test_vectors.md 2.8 to 2.11) -/

theorem test_noinit : seen (completed (.emitBit true) .reset) .reset = (4, 0x200, []) := by decide
theorem test_noinit_latch : seen (completed .latch .reset) .reset = (4, 0x200, []) := by decide
theorem test_illegal_only :
    accept Config.ref16 (execWith Config.ref16) 0x70000100 .reset =
      .next { State.reset with fIllegal := true, pending := [.uWAIT 4] } := rfl

/-- In the middle of V-OVR-1's pixel: the pin has just risen, at t=100. -/
def midPixel : State :=
  { readyHigh with
    cyc := 100
    pending := [.uNOP, .uSETLO, .uWAIT 8]
    hostKind := .async
    trace := [(0, .Z), (6, .L), (100, .H)] }

theorem test_overrun :
    (match applyMove Config.ref16 (execWith Config.ref16) (.issueBusy 0xA0000000) midPixel with
      | .next t => (status t, t.pending)
      | .fault _ => (0, [])
      | .refused _ => (0, [])) = (0x407, midPixel.pending) := by decide

/-- V-RST-2: `uSETLO` starts at t=23, the reset comes at t=24. -/
theorem test_resetAt :
    seen (doResetAt 1 { readyHigh with cyc := 23, pending := [.uSETLO, .uWAIT 3] }) readyHigh =
      (24, 0x000, [(24, .Z)]) := by decide

/-- V-IRQ-1: a stall of 3 before the first `uNOP`. -/
theorem test_stall : (seqStep Config.ref16 3 { readyHigh with ie := true, pending := [.uNOP] }).cyc = 18 := by decide

/-- V-DEC-1: the fall exactly at the sample instant reads 0. -/
theorem test_decode_tie :
    decodeTrace Config.ref16 (fun _ => false) [(0, .Z), (6, .L), (14, .H), (22, .L)] 8 822 =
      some [⟨[false], true⟩] := by decide

/-- V-DEC-3: a window that starts at Z is refused, and so is one with a Z in it. -/
theorem test_decode_refused :
    decodeTrace Config.ref16 (fun _ => false) [(0, .Z), (6, .L), (14, .H), (20, .Z), (26, .L)] 8 900 = none ∧
      decodeTrace Config.ref16 (fun _ => false) [(0, .Z), (14, .L)] 0 1146 = none := by decide

/-- A run ends where the host is done although the environment still has a reset, here not well; the state after that
reset is no part of the run (60_exceptions.md R220). -/
theorem test_run_ends_before_a_later_reset :
    State.runEnds { ready with fIllegal := true, inputs := [.reset] } = true ∧
      State.endsWell { ready with fIllegal := true, inputs := [.reset] } = false ∧
      runEnd Config.ref16 5 { ready with fIllegal := true, inputs := [.reset] } =
        some { ready with fIllegal := true, inputs := [.reset] } ∧
      State.runEnds { ready with inputs := [.reset, .readStatus] } = false ∧ State.runEnds busy = false := by decide

/-- `CH` in the bytes of a pixel (43_pixel_emitter.md R151: CH=3 for green, 2 for red, 1 for blue). -/
theorem test_viewCH :
    (State.viewCH Config.ref16 { ready with pending := pixelOps Config.ref16 0x140A1E } = 3 ∧
      State.viewCH Config.ref16 { ready with pending := pixelLoop Config.ref16 2 0x140A1E } = 2 ∧
      State.viewCH Config.ref16 { ready with pending := pixelLoop Config.ref16 1 0x140A1E } = 1) ∧
      State.viewCH Config.ref16 ready = 0 := by decide +kernel

/-- The loop registers during an EMIT_BIT: the model's choice (notes/assumptions/21.md). -/
theorem test_views_emitBit :
    (State.viewBC Config.ref16 { ready with pending := bitOps Config.ref16 true } = 1 ∧
      State.viewSR Config.ref16 { ready with pending := bitOps Config.ref16 true } = 0x80 ∧
      State.viewCH Config.ref16 { ready with pending := bitOps Config.ref16 true } = 1) ∧
      State.viewBC Config.ref16 { ready with pending := (bitOps Config.ref16 true).tail } = 0 := by decide

/-- V-GAP-3, on two short pulses: a LOW of 81 cycles is one frame or two. -/
theorem test_decode_band :
    decodeTrace Config.ref16 (fun _ => false) [(0, .Z), (6, .L), (14, .H), (20, .L), (101, .H), (112, .L)] 8 912 =
        some [⟨[false, true], true⟩] ∧
      decodeTrace Config.ref16 (fun _ => true) [(0, .Z), (6, .L), (14, .H), (20, .L), (101, .H), (112, .L)] 8 912 =
        some [⟨[false], true⟩, ⟨[true], true⟩] := by decide

/-- The window of a platform address (20_memory.md R50, R54). -/
theorem test_busOffset :
    busOffset { Config.ref16 with bteBase := 0x40 } 0x44 = some 4 ∧
      busOffset { Config.ref16 with bteBase := 0x40 } 0x48 = none ∧
      busOffset { Config.ref16 with bteBase := 0x40 } 0x3F = none := by decide

/-! ## The host's own fields: the table's words and the placed word -/

theorem test_decodeTableWord : decodeTableWord 32 0x80140A1E = some (.sendPixel 20 10 30) := by decide

/-- The word placed is the one the very next step runs. -/
theorem test_withFetchWord : step (State.reset.withFetchWord 32 0x50000000) = exec .init State.reset := rfl

/-- A step from reset with nothing placed: the run has ended before it began (60_exceptions.md R220). -/
theorem test_reset_runEnded : step State.reset = .fault .runEnded := rfl

/-! ## Witnesses: for every statement with hypotheses, states and operands that meet them -/

theorem ready_traceOk : ready.TraceOk where
  begins := rfl
  ordered := by simp [TimesOrdered, ready]
  past := by simp [ready]
  changes := by simp [ValuesChange, ready]
  shows := rfl

theorem readyHigh_traceOk : readyHigh.TraceOk where
  begins := rfl
  ordered := by simp [TimesOrdered, readyHigh]
  past := by simp [readyHigh, ready]
  changes := by simp [ValuesChange, readyHigh]
  shows := rfl

theorem witness_DecoderAcceptsExactlyTheLegalWords :
    decode 0x70000001 = .ok (.emitByte 1) ∧ Legal 0x70000001 = true := by decide

theorem witness_LegalIffOneMaskRowMatches :
    ∃ row ∈ maskRows, (0x4000FFFF : Word) &&& row.mask = row.pattern := by decide

theorem witness_IllegalWordsAreRefusedByName :
    9 < (opField 0xA0000000).toNat ∧
      ((opField 0x91000000).toNat ≤ 9 ∧ rsvField 0x91000000 ≠ 0) ∧
      ((opField 0x90000001).toNat ≤ 9 ∧ rsvField 0x90000001 = 0 ∧ Legal 0x90000001 = false) := by decide

theorem witness_ResetLeavesTheStatedValues : ({ busy with inputs := [.reset] } : State).inputs = .reset :: [] := rfl

/-- Inside when idle, inside at the last cycle, outside when idle, outside at the cost. -/
theorem witness_ResetInsideAMicroOpCutsItShort :
    (ready.pending = [] ∧ (0 : Nat) = 0) ∧
      (∃ op ops, busy.pending = op :: ops ∧ 2 < op.cost cfg) ∧
      step { ready with inputs := [.resetAt 1] } = .fault .resetNotInside ∧
      step { busy with inputs := [.resetAt 3] } = .fault .resetNotInside :=
  ⟨⟨rfl, rfl⟩, ⟨_, _, rfl, by decide⟩, rfl, rfl⟩

theorem witness_StatusBitsAreAsTabled :
    (({ ready with inputs := [.readStatus] } : State).inputs = .readStatus :: [] ∧ ready.pending = []) ∧
      (({ busy with inputs := [.regWrite 4 4 7] } : State).inputs = .regWrite 4 4 7 :: [] ∧ busy.hostKind = .async) :=
  ⟨⟨rfl, rfl⟩, rfl, rfl⟩

/-- The two offsets, the other width and the offset between them. -/
theorem witness_HostReadsOfTheWindow :
    step { ready with inputs := [.regRead 0 4] } = .next { ready with hostReads := [0] } ∧
      step { busy with inputs := [.regRead 4 4] } = .next { busy with hostReads := [0x003] } ∧
      step { ready with inputs := [.regRead 0 2] } = .fault (.noAccess 0 2) ∧
      step { ready with inputs := [.regRead 2 4] } = .fault (.noAccess 2 4) := ⟨rfl, rfl, rfl, rfl⟩

theorem witness_HostWritesOfTheWindow :
    step { ready with inputs := [.regWrite 0 4 0] } = .next { ready with pending := [.uWAIT cfg.cCmd, .uNOP] } ∧
      step { busy with inputs := [.regWrite 4 4 0] } = .next busy ∧
      step { ready with inputs := [.regWrite 8 4 0] } = .fault (.noAccess 8 4) := ⟨rfl, rfl, rfl⟩

theorem witness_StepRunsTheDecodedCommand :
    decode 0x50000000 = .ok .init ∧
      (({ ready with inputs := [.issue 0x50000000] } : State).inputs = .issue 0x50000000 :: [] ∧ ready.pending = []) ∧
      (({ busy with inputs := [.issueBusy 0x50000000] } : State).inputs = .issueBusy 0x50000000 :: [] ∧
        busy.pending ≠ [] ∧ busy.hostKind = .async) ∧
      tableWord 32 0x50000000 = 0x50000000 := by decide

theorem witness_IllegalWordSetsIllegal :
    ({ State.reset with inputs := [.issue 0x0F000000] } : State).inputs = .issue 0x0F000000 :: [] ∧
      State.reset.pending = [] ∧ Legal 0x0F000000 = false := by decide

theorem witness_EmissionBeforeInitSetsNoinit :
    State.reset.pending = [] ∧ State.reset.dir = .IN ∧
      exec .latch .reset = .next { State.reset with fNoinit := true, pending := [.uWAIT cfg.cCmd] } ∧
      exec .nop .reset = .next { State.reset with pending := [.uWAIT cfg.cCmd, .uNOP] } := ⟨rfl, rfl, rfl, rfl⟩

theorem witness_WriteWhileBusySetsOverrunOnly :
    busy.pending ≠ [] ∧ busy.hostKind = .async ∧
      ({ busy with inputs := [.issueBusy 0xA0000000] } : State).inputs = .issueBusy 0xA0000000 :: [] ∧
      ({ busy with inputs := [.regWrite 0 4 0xA0000000] } : State).inputs = .regWrite 0 4 0xA0000000 :: [] := by decide

/-- The three clauses: busy with an illegal word, idle with it, idle with a legal emission before INIT. -/
theorem witness_OneWriteRaisesAtMostOneFault :
    step { busy with inputs := [.regWrite 0 4 0xA0000000] } = .next { busy with fOverrun := true } ∧
      step { State.reset with inputs := [.regWrite 0 4 0x70000100] } =
        .next { State.reset with fIllegal := true, pending := [.uWAIT cfg.cCmd] } ∧
      step { State.reset with inputs := [.regWrite 0 4 0x700000FF] } =
        .next { State.reset with fNoinit := true, pending := [.uWAIT cfg.cCmd] } := ⟨rfl, rfl, rfl⟩

/-- The hypotheses of the commands' statements: idle, idle and driven, busy, not driven, and the trace showing the pin;
and the words that are turned away. -/
theorem witness_commands :
    (ready.pending = [] ∧ ready.dir = .OUT ∧ ready.lastPin = some ready.eff) ∧
      (readyHigh.pending = [] ∧ readyHigh.dir = .OUT ∧ readyHigh.lastPin = some readyHigh.eff) ∧
      (State.reset.pending = [] ∧ State.reset.dir = .IN ∧ State.reset.lastPin = some State.reset.eff) ∧
      busy.pending ≠ [] := by decide

theorem witness_NopRunsAndOnlySpendsTime : opField 0x08000000 = 0x0#4 ∧ (0x08000000 : Word) ≠ 0x00000000 := by decide
theorem witness_PinOutputDrivesThePin : opField 0x10000001 = 0x1#4 ∧ (0x10000001 : Word) ≠ 0x10000000 := by decide
theorem witness_PinHighRaisesTheLatch : opField 0x20000001 = 0x2#4 ∧ (0x20000001 : Word) ≠ 0x20000000 := by decide
theorem witness_PinLowLowersTheLatch : opField 0x38000000 = 0x3#4 ∧ (0x38000000 : Word) ≠ 0x30000000 := by decide
theorem witness_DelayUsSpendsItsMicroseconds :
    opField 0x40010000 = 0x4#4 ∧ (0x40010000 : Word).extractLsb' 16 12 ≠ 0 := by decide
theorem witness_InitMakesAnOutputAtLow : opField 0x5000000F = 0x5#4 ∧ (0x5000000F : Word) ≠ 0x50000000 := by decide
theorem witness_EmitBitSendsOnePulse :
    opField 0x60000002 = 0x6#4 ∧ (0x60000002 : Word).extractLsb' 1 27 ≠ 0 := by decide
theorem witness_EmitByteSendsEightPulses :
    opField 0x70000100 = 0x7#4 ∧ (0x70000100 : Word).extractLsb' 8 20 ≠ 0 := by decide
theorem witness_SendPixelSendsTwentyFourPulses :
    opField 0x81000000 = 0x8#4 ∧ (0x81000000 : Word).extractLsb' 24 4 ≠ 0 := by decide
theorem witness_LatchHoldsThePinLow : opField 0x90000001 = 0x9#4 ∧ (0x90000001 : Word) ≠ 0x90000000 := by decide

/-- Started, faulted and overrun: an answer of exec in each case. -/
theorem witness_AcceptingACommandLeavesTheRest :
    exec .latch ready = .next { ready with pending := [.uWAIT cfg.cCmd, .uSETLO, .uWAIT (nLatch cfg)] } ∧
      exec .latch .reset = .next { State.reset with fNoinit := true, pending := [.uWAIT cfg.cCmd] } ∧
      exec .latch busy = .next { busy with fOverrun := true } := ⟨rfl, rfl, rfl⟩

theorem witness_CompletingACommandLeavesTheRest :
    MicroOp.uSETOUT ∉ busy.pending ∧ MicroOp.uSETHI ∉ busy.pending ∧
      MicroOp.uSETLO ∉ ({ ready with pending := [.uWAIT 1] } : State).pending := by decide

theorem witness_CommandsTakeTheirStatedDurations :
    (exec (.emitBit true) ready = .next { ready with pending := .uWAIT cfg.cCmd :: bitOps cfg true } ∧
        ready.pending = [] ∧ ready.dir = .OUT) ∧
      (exec .latch .reset = .next { State.reset with fNoinit := true, pending := [.uWAIT cfg.cCmd] } ∧
        Instr.latch.needsInit = true ∧ State.reset.dir = .IN) ∧
      (exec .nop busy = .next { busy with fOverrun := true } ∧ busy.pending ≠ []) :=
  ⟨⟨rfl, rfl, rfl⟩, ⟨rfl, rfl, rfl⟩, rfl, by decide⟩

/-- Enabled with no stall, enabled with a stall, and not enabled: idle, and a stall while interrupts are disabled. -/
theorem witness_SequencerExecutesTheHeadMicroOp :
    step { busy with inputs := [.seq 0] } = .next { busy with pending := [.uSETLO], cyc := 11 } ∧
      step { busy with ie := true, inputs := [.seq 5] } =
        .next { busy with ie := true, pending := [.uSETLO], cyc := 16 } ∧
      step { ready with inputs := [.seq 0] } = .fault .seqNotEnabled ∧
      step { busy with inputs := [.seq 1] } = .fault .seqNotEnabled := ⟨rfl, rfl, rfl, rfl⟩

/-- With an empty input list, with a host that waits, and with interrupts enabled. -/
theorem witness_SequencerStepsWhileTheHostWaits :
    (busy.pending ≠ [] ∧ busy.undisturbed = true ∧ busy.ie = false) ∧
      ({ busy with inputs := [.idle 5] } : State).undisturbed = true ∧
      ({ busy with ie := true } : State).undisturbed = true := by decide

theorem witness_StepsReachTheSettledState : busy.undisturbed = true ∧ busy.ie = false := by decide

theorem witness_EveryCommandCompletes : ({ busy with ie := true } : State).undisturbed = true := by decide

/-- A step of every kind that answers a next state. -/
theorem witness_TraceInvariantKeptByEveryStep :
    ready.TraceOk ∧ step { ready with inputs := [.idle 3] } = .next { ready with cyc := 11 } := ⟨ready_traceOk, rfl⟩

theorem witness_OnlyResetClearsFaultBits :
    (step { busy with fIllegal := true, inputs := [.seq 0] } =
        .next { busy with fIllegal := true, pending := [.uSETLO], cyc := 11 } ∧
      ({ busy with inputs := [.seq 0] } : State).resetNext = false) ∧
      (step { State.reset with fNoinit := true, inputs := [.reset] } = .next State.reset ∧
        ({ State.reset with inputs := [.reset] } : State).resetNext = true) := ⟨⟨rfl, rfl⟩, rfl, rfl⟩

/-- A step that changes the direction, and a reset that sets it back. -/
theorem witness_OnlySetOutAndResetChangeTheDirection :
    (∃ t, step { State.reset with pending := [.uSETOUT], inputs := [.seq 0] } = .next t ∧ t.dir ≠ .IN) ∧
      step { ready with inputs := [.resetAt 0] } =
        .next { State.reset with cyc := 8, trace := [(0, .Z), (6, .L), (8, .Z)] } := ⟨⟨_, rfl, by decide⟩, rfl⟩

theorem witness_OnlyTheSequencerWritesThePin :
    (∃ t, step { ready with pending := [.uSETHI], inputs := [.seq 0] } = .next t ∧ t.level ≠ ready.level) ∧
      ({ ready with inputs := [.idle 3] } : State).sequencerNext = false := ⟨⟨_, rfl, by decide⟩, rfl⟩

theorem witness_TimeMovesOnlyByItsSteps :
    step { ready with inputs := [.idle 3] } = .next { ready with cyc := 11 } ∧ (11 : Nat) ≠ ready.cyc ∧
      ready.pending = [] := ⟨rfl, by decide, rfl⟩

theorem witness_OnlySetIEAndResetChangeTheEnable :
    step { ready with inputs := [.setIE true] } = .next { ready with ie := true } ∧ true ≠ ready.ie ∧
      ready.pending = [] := ⟨rfl, by decide, rfl⟩

theorem witness_NothingButResetCutsACommandShort :
    step { busy with inputs := [.readStatus] } = .next { busy with hostReads := [0x003] } ∧ busy.pending ≠ [] ∧
      ({ busy with inputs := [.readStatus] } : State).resetNext = false := ⟨rfl, by decide, rfl⟩

theorem witness_SynchronousHostNeverOverruns :
    ({ ready with inputs := [.regWrite 0 4 0] } : State).SyncDriven ∧ ready.fOverrun = false ∧
      step { ready with inputs := [.regWrite 0 4 0] } = .next { ready with pending := [.uWAIT cfg.cCmd, .uNOP] } :=
  ⟨⟨rfl, by decide⟩, rfl, rfl⟩

/-- Each stop, at a state where it is made. -/
theorem witness_StepsStopOnlyWhereTheSpecHasNone :
    step ready = .fault .runEnded ∧ step { ready with inputs := [.issueBusy 0] } = .fault .issueBusyNotEnabled ∧
      step { ready with inputs := [.regRead 4 1] } = .fault (.noAccess 4 1) ∧
      step { ready with inputs := [.regWrite 1 4 0] } = .fault (.noAccess 1 4) ∧
      step { ready with inputs := [.seq 0] } = .fault .seqNotEnabled ∧
      step { busy with inputs := [.resetAt 3] } = .fault .resetNotInside := ⟨rfl, rfl, rfl, rfl, rfl, rfl⟩

theorem witness_BitIsHighThenLowForItsTimes :
    Config.ref16.Admitted ∧ ready.dir = .OUT ∧ ready.level = false ∧ ready.lastPin = some .L :=
  ⟨Config.ref16_admitted, rfl, rfl, rfl⟩

theorem witness_PixelGoesOutGreenRedBlue : Config.ref16.Admitted := Config.ref16_admitted

/-- Before the first bit of green, before the last bit of blue (or of an EMIT_BYTE), before the byte of red, and after
the last byte. -/
theorem witness_LoopRegistersAreAViewOfThePendingList :
    Config.ref16.Admitted ∧ 3 ≤ 3 ∧
      ({ ready with pending := byteOps Config.ref16 20 ++ pixelLoop Config.ref16 2 0x140A1E } : State).pending =
        byteLoop Config.ref16 (8 - 0) ((20 : Byte) <<< 0) ++ pixelLoop Config.ref16 2 0x140A1E ∧
      ({ ready with pending := byteLoop Config.ref16 1 ((30 : Byte) <<< 7) } : State).pending =
        byteLoop Config.ref16 (8 - 7) ((30 : Byte) <<< 7) ++ pixelLoop Config.ref16 0 0x140A1E ∧
      ({ ready with pending := pixelLoop Config.ref16 2 0x140A1E } : State).pending =
        pixelLoop Config.ref16 2 0x140A1E ∧
      ready.pending = [] :=
  ⟨Config.ref16_admitted, by decide, rfl, by simp [pixelLoop], rfl, rfl⟩

theorem witness_InitIsIdempotentOnThePin :
    readyHigh.pending = [] ∧ readyHigh.lastPin = some readyHigh.eff := by decide

theorem witness_LatchLowLastsAtLeastTheHold :
    (ready.pending = [] ∧ ready.dir = .OUT ∧ ready.level = false ∧ ready.TraceOk) ∧
      readyHigh.pending = [] ∧ readyHigh.dir = .OUT ∧ readyHigh.level = true ∧ readyHigh.TraceOk :=
  ⟨⟨rfl, rfl, rfl, ready_traceOk⟩, rfl, rfl, rfl, readyHigh_traceOk⟩

theorem witness_PulseFromPrimitivesLastsBetweenAcceptances :
    ready.pending = [] ∧ ready.dir = .OUT ∧ ready.level = false ∧ ready.lastPin = some .L := by decide

/-- Each of the three as the first command, and as the second. -/
theorem witness_LowBetweenTwoCommands :
    (ready.pending = [] ∧ ready.dir = .OUT ∧ ready.TraceOk) ∧
      (lastBit (.emitBit true) = some true ∧ lastBit (.emitByte 0xB1) = some true ∧
        lastBit (.sendPixel 0 0 1) = some true) ∧
      leadIn cfg (.emitBit false) = some 0 ∧ leadIn cfg (.emitByte 0) = some cfg.cBitOvh ∧
      leadIn cfg (.sendPixel 0 0 0) = some (cfg.cByteOvh + cfg.cBitOvh) :=
  ⟨⟨rfl, rfl, ready_traceOk⟩, by decide, rfl, rfl, rfl⟩

theorem witness_StallLengthensThePulseUnreported :
    ∃ s : State, s.inputs = .seq 3 :: [] ∧ s.pending = .uSETLO :: [] ∧ s.ie = true ∧ s.dir = .OUT ∧
      s.lastPin = some .H :=
  ⟨{ readyHigh with inputs := [.seq 3], pending := [.uSETLO], ie := true }, rfl, rfl, rfl, rfl, rfl⟩

theorem witness_ReceiverReadsTwoPulses :
    Config.ref16.Admitted ∧ 0 < 6 ∧ 6 < 14 ∧ 14 < 20 ∧ 20 < 820 ∧ 820 < 829 ∧ 829 ≤ 829 :=
  ⟨Config.ref16_admitted, by decide⟩

/-- A window that starts at Z, a window with a Z in it, and one that is read. -/
theorem witness_ReceiverRefusesAnUndrivenWindow :
    levelAt [(0, .Z), (14, .L)] 0 ≠ some .L ∧ ((20, Pin.Z) ∈ [(0, .Z), (6, .L), (14, .H), (20, .Z)]) ∧
      levelAt [(0, .Z), (6, .L), (14, .H), (20, .Z)] 8 = some .L := by decide

theorem witness_FrameBitsGroupIntoPixels :
    [true, false].length < 24 ∧
      (⟨(byteBits 20 ++ byteBits 10 ++ byteBits 30) ++ [true, false], true⟩ : Frame).pixels =
        ([⟨20, 10, 30⟩], [true, false]) := by decide

/-- Three channels in another order; a repeated r, with b missing, which the line of text shows refused; and bits. -/
theorem witness_LinesOfTextAreReadAsWritten :
    [("b", 30), ("g", 20), ("r", 10)].Perm [("g", 20), ("r", 10), ("b", 30)] ∧
      ¬ ["g", "r", "r"].Perm ["g", "r", "b"] ∧
      parseLine "SEND_PIXEL g=1, r=2, r=3".toList = none ∧ [true, false, true] ≠ [] := by decide

theorem witness_RunEndsAtTheFirstIdleStateWithTheHostDone :
    runEnd Config.ref16 3 { ready with inputs := [.idle 3, .reset] } = some { ready with cyc := 11, inputs := [.reset] } ∧
      runWith Config.ref16 1 { ready with inputs := [.idle 3, .reset] } =
        .next { ready with cyc := 11, inputs := [.reset] } := ⟨rfl, rfl⟩

/-- REF16 meets CAL1 to CAL7 (46_waveform.md R185). -/
theorem ref16_compliant : Compliant Config.ref16 where
  cal1 := by decide
  cal2_lo := by norm_num [highTime, nH, Config.ref16]
  cal2_hi := by norm_num [highTime, nH, Config.ref16]
  cal3_zero := by norm_num [ns, highTime, nH, Config.ref16, abs_le]
  cal3_one := by norm_num [ns, highTime, nH, Config.ref16, abs_le]
  cal4_bit := by intro v; cases v <;> norm_num [ns, period, nH, nL, Config.ref16, abs_le]
  cal4_byteEnd := by intro v; cases v <;> norm_num [ns, periodAtByteEnd, period, nH, nL, Config.ref16, abs_le]
  cal5 := by decide
  cal6_zero := by decide
  cal6_one := by decide
  cal7 := by decide

/-- Two pixels with the greatest gap REF16 allows (60 cycles), as 46_waveform.md R196 says. -/
theorem witness_FrameArrivesAsOneLatchedFrame :
    Config.ref16.Admitted ∧ Compliant Config.ref16 ∧
      ({ ready with inputs := frameMoves [(0, 0x140A1E), (60, 0x0000FF)] 7 } : State).ReadyToSend ∧
      (∀ p ∈ [((60 : Nat), (0x0000FF : Arg))], gapAllowed Config.ref16 p.1) ∧ ¬ gapAllowed Config.ref16 61 :=
  ⟨Config.ref16_admitted, ref16_compliant,
    ⟨rfl, rfl, rfl, rfl, ⟨rfl, ready_traceOk.ordered, ready_traceOk.past, ready_traceOk.changes, rfl⟩, by simp [ready]⟩,
    by simp [gapAllowed, Config.ref16], by simp [gapAllowed, Config.ref16]⟩

end Sys2Proof.Tests
end

section
/-! PROOFS. The whole-machine rules of 10_state.md: the trace's invariant, the fault bits, the direction, the latch,
the time, the interrupt enable, the bits of STATUS, and the loop registers as a view of the pending list. Each rule is
derived from `StepEffect` through the coarser case lemmas below. -/

namespace Sys2Proof.Machine

/-! ## What a micro-operation and a reset do to the pin and the trace -/

@[simp] theorem execMicro_dir (c : Config) (op : MicroOp) (s : State) :
    (execMicro c op s).dir = if op = .uSETOUT then .OUT else s.dir := by
  cases op <;> simp [execMicro]

@[simp] theorem execMicro_level (c : Config) (op : MicroOp) (s : State) :
    (execMicro c op s).level = if op = .uSETHI then true else if op = .uSETLO then false else s.level := by
  cases op <;> simp [execMicro]

theorem setpin_trace_prefix {s u : State} (htrace : u.trace = s.trace) : s.trace <+: (setpin u).trace := by
  rw [setpin_trace, htrace]
  split
  · exact List.prefix_rfl
  · exact List.prefix_append _ _

theorem execMicro_trace_prefix (c : Config) (op : MicroOp) (s : State) : s.trace <+: (execMicro c op s).trace := by
  cases op with
  | uNOP | uWAIT => exact List.prefix_rfl
  | uSETOUT | uSETHI | uSETLO => exact setpin_trace_prefix rfl

/-- Only the three pin micro-operations write the trace (40_sequencer.md R102 to R107). -/
theorem pinOp_of_trace_ne {c : Config} {op : MicroOp} {s : State} (h : (execMicro c op s).trace ≠ s.trace) :
    op = .uSETOUT ∨ op = .uSETHI ∨ op = .uSETLO := by
  cases op with
  | uNOP | uWAIT => exact absurd rfl h
  | uSETOUT | uSETHI | uSETLO => simp

theorem doResetAt_trace_prefix (d : Nat) (s : State) : s.trace <+: (doResetAt d s).trace := setpin_trace_prefix rfl

/-! ## The pin's part of a step -/

/-- `t` has the pin and the trace of `s`, at the same time or later. -/
structure PinKept (s t : State) : Prop where
  dir : t.dir = s.dir
  level : t.level = s.level
  trace : t.trace = s.trace
  later : s.cyc ≤ t.cyc

/-- What a step does to the pin: nothing, or what the head micro-operation does, or what a reset does. -/
theorem StepEffect.pin_cases {c : Config} {s t : State} (h : StepEffect c s t) :
    (s.resetNext = false ∧ PinKept s t) ∨
    (s.resetNext = false ∧ s.sequencerNext = true ∧
      ∃ op ops st, s.pending = op :: ops ∧ PinKept (execMicro c op (advance st s)) t) ∨
    (s.resetNext = true ∧ ∃ d, PinKept (doResetAt d s) t) := by
  cases h with
  | sequencer st ins n hs hr hp =>
    obtain ⟨op, ops, ho⟩ := List.exists_cons_of_ne_nil hp
    rw [seqStep_cons ho]
    exact .inr (.inl ⟨hr, hs, op, ops, st, ho, rfl, rfl, rfl, Nat.le_refl _⟩)
  | overrun _ _ _ hr | illegal _ _ _ hr | noinit _ _ _ hr | start _ _ _ _ hr | read _ _ _ _ hr | ignored _ _ _ hr
  | setIE _ _ _ hr => exact .inl ⟨hr, rfl, rfl, rfl, Nat.le_refl _⟩
  | idle n _ _ hr => exact .inl ⟨hr, rfl, rfl, rfl, Nat.le_add_right _ n⟩
  | reset _ hi => exact .inr (.inr ⟨by simp [State.resetNext, hi], 0, rfl, rfl, rfl, Nat.le_refl _⟩)
  | resetAt d _ hi => exact .inr (.inr ⟨by simp [State.resetNext, hi], d, rfl, rfl, rfl, Nat.le_refl _⟩)

/-- A step whose next move is a reset is a reset, `d` cycles later (70_reset_and_hazards.md R240, R241). -/
theorem StepEffect.eq_doResetAt {c : Config} {s t : State} (h : StepEffect c s t) (hr : s.resetNext = true) :
    ∃ d rest, t = { doResetAt d s with inputs := rest } := by
  cases h with
  | sequencer _ _ _ _ hn | overrun _ _ _ hn | illegal _ _ _ hn | noinit _ _ _ hn | start _ _ _ _ hn | read _ _ _ _ hn
  | ignored _ _ _ hn | setIE _ _ _ hn | idle _ _ _ hn => simp [hr] at hn
  | reset rest => exact ⟨0, rest, rfl⟩
  | resetAt d rest => exact ⟨d, rest, rfl⟩

/-! ## The trace's invariant (10_state.md R32) -/

theorem valuesChange_iff_isChain (tr : List (Nat × Pin)) : ValuesChange tr ↔ tr.IsChain fun e f => e.2 ≠ f.2 := by
  induction tr using ValuesChange.induct with
  | case1 | case2 => simp [ValuesChange]
  | case3 e f rest ih => rw [ValuesChange, List.isChain_cons_cons, ih]

theorem PinKept.eff {s t : State} (h : PinKept s t) : t.eff = s.eff := by
  simp [State.eff, h.dir, h.level]

/-- A step that leaves the pin and the trace alone keeps the invariant. -/
theorem State.TraceOk.kept {s t : State} (ok : s.TraceOk) (h : PinKept s t) : t.TraceOk where
  begins := h.trace ▸ ok.begins
  ordered := h.trace ▸ ok.ordered
  past e he := (ok.past e (h.trace ▸ he)).trans h.later
  changes := h.trace ▸ ok.changes
  shows := by rw [h.eff, ← ok.shows, State.lastPin, State.lastPin, h.trace]

/-- `setpin()` makes the invariant hold, whatever became of the pin, if the trace and the time were in order before. -/
theorem setpin_traceOk {s u : State} (ok : s.TraceOk) (htrace : u.trace = s.trace) (hcyc : s.cyc ≤ u.cyc) :
    (setpin u).TraceOk := by
  have past : ∀ e ∈ u.trace, e.1 ≤ u.cyc := fun e he => (ok.past e (htrace ▸ he)).trans hcyc
  by_cases hl : u.lastPin = some u.eff
  · rw [setpin_same hl]
    exact ⟨htrace ▸ ok.begins, htrace ▸ ok.ordered, past, htrace ▸ ok.changes, hl⟩
  · have ordered : TimesOrdered (u.trace ++ [(u.cyc, u.eff)]) :=
      List.pairwise_append.2 ⟨htrace ▸ ok.ordered, List.pairwise_singleton _ _, by simpa using past⟩
    have changes : ValuesChange (u.trace ++ [(u.cyc, u.eff)]) := by
      rw [valuesChange_iff_isChain, List.isChain_append, ← valuesChange_iff_isChain]
      refine ⟨htrace ▸ ok.changes, .singleton _, ?_⟩
      rintro x hx y ⟨⟩ he
      exact hl (by rw [State.lastPin, hx]; exact congrArg some he)
    have shows := setpin_shows u
    rw [setpin_change hl] at shows ⊢
    refine ⟨?_, ordered, ?_, changes, shows⟩
    · simp [htrace, ok.begins]
    · simpa [or_imp, forall_and] using past

theorem execMicro_traceOk (c : Config) (op : MicroOp) {s : State} (ok : s.TraceOk) : (execMicro c op s).TraceOk := by
  cases op with
  | uNOP => exact ok.kept ⟨rfl, rfl, rfl, Nat.le_add_right _ _⟩
  | uWAIT n => exact ok.kept ⟨rfl, rfl, rfl, Nat.le_add_right _ n⟩
  | uSETOUT | uSETHI | uSETLO => exact setpin_traceOk ok rfl (Nat.le_add_right _ c.cPin)

theorem advance_traceOk (n : Nat) {s : State} (ok : s.TraceOk) : (advance n s).TraceOk :=
  ok.kept ⟨rfl, rfl, rfl, Nat.le_add_right _ n⟩

theorem doResetAt_traceOk (d : Nat) {s : State} (ok : s.TraceOk) : (doResetAt d s).TraceOk :=
  setpin_traceOk ok rfl (Nat.le_add_right _ d)

theorem StepEffect.traceOk {c : Config} {s t : State} (h : StepEffect c s t) (ok : s.TraceOk) : t.TraceOk := by
  obtain ⟨-, hk⟩ | ⟨-, -, op, _, st, -, hk⟩ | ⟨-, d, hk⟩ := h.pin_cases
  · exact ok.kept hk
  · exact (execMicro_traceOk c op (advance_traceOk st ok)).kept hk
  · exact (doResetAt_traceOk d ok).kept hk

/-- Settles O37: a step keeps the pin and the trace, executes one micro-operation or resets, and each keeps the
invariant, the last two by `setpin()`. -/
theorem traceInvariantKeptByEveryStep : Obligations.TraceInvariantKeptByEveryStep :=
  fun _ _ ok h => (step_effect h).traceOk ok

/-! ## STATUS (10_state.md R36) -/

/-- A move that need not wait is made by the next step. -/
theorem step_ready {s : State} {m : Move} {rest : List Move} (hi : s.inputs = m :: rest)
    (h : s.pending = [] ∨ m.hostWaits s.hostKind = false) : step s = applyMove cfg exec m { s with inputs := rest } :=
  stepWith_move hi (sequencerMoves_ready hi h)

/-- STATUS by its bits, lowest first: the eleven of the table, and 0 above them. -/
theorem status_getLsbD (s : State) (k : Nat) :
    (status s).getLsbD k = [s.busy, s.dir.isOut, s.level, false, false, false, false, false, s.fIllegal, s.fNoinit,
      s.fOverrun].getD k false := by
  simp only [status, BitVec.getLsbD_append]
  by_cases hk : k < 11
  · interval_cases k <;> simp
  · obtain ⟨j, rfl⟩ := Nat.exists_eq_add_of_le' (Nat.le_of_not_lt hk)
    simp

theorem busy_eq_decide (s : State) : s.busy = decide (s.pending ≠ []) := by
  rw [Bool.eq_iff_iff, busy_eq_true, decide_eq_true_iff]

theorem isOut_eq_decide (d : Dir) : d.isOut = decide (d = .OUT) := by cases d <;> rfl

theorem status_reservedLow (s : State) {k : Nat} (hlo : 3 ≤ k) (hhi : k ≤ 7) : (status s).getLsbD k = false := by
  rw [status_getLsbD]
  interval_cases k <;> rfl

theorem status_reservedHigh (s : State) {k : Nat} (hlo : 11 ≤ k) : (status s).getLsbD k = false := by
  rw [status_getLsbD]
  exact List.getD_eq_default _ _ hlo

/-- Settles O11: each bit by the place the packing of the word gives its field, the accesses by the move they make. -/
theorem statusBitsAreAsTabled : Obligations.StatusBitsAreAsTabled := by
  intro s
  refine ⟨(status_getLsbD s 0).trans (busy_eq_decide s), (status_getLsbD s 1).trans (isOut_eq_decide s.dir),
    status_getLsbD s 2, fun _ => status_reservedLow s, status_getLsbD s 8, status_getLsbD s 9, status_getLsbD s 10,
    fun _ hlo _ => status_reservedHigh s hlo, rfl, ?read, ?write⟩
  case read =>
    intro rest hi hw
    rw [step_ready hi (hw.imp_right fun hk => by rw [hk]; rfl)]
    rfl
  case write =>
    intro w rest hi hw
    rw [step_ready hi (hw.imp_right fun hk => by rw [hk]; rfl)]
    rfl

/-! ## The fault bits (10_state.md R27) -/

theorem StepEffect.keeps_faults {c : Config} {s t : State} (h : StepEffect c s t) (hr : s.resetNext = false) :
    (s.fIllegal = true → t.fIllegal = true) ∧ (s.fNoinit = true → t.fNoinit = true) ∧
      (s.fOverrun = true → t.fOverrun = true) := by
  cases h with
  | sequencer | overrun | illegal | noinit | start | read | ignored | idle | setIE => simp
  | reset _ hi | resetAt _ _ hi => simp [State.resetNext, hi] at hr

theorem doResetAt_faultFree (d : Nat) (s : State) : (doResetAt d s).faultFree = true := by
  simp [State.faultFree, doResetAt]

/-- Settles O38: no effect but a reset's writes 0 to a fault bit, and a reset writes 0 to all three. -/
theorem onlyResetClearsFaultBits : Obligations.OnlyResetClearsFaultBits := by
  intro s t h
  refine ⟨(step_effect h).keeps_faults, fun hr => ?_⟩
  obtain ⟨d, rest, rfl⟩ := (step_effect h).eq_doResetAt hr
  exact doResetAt_faultFree d s

/-! ## The direction (10_state.md R22) -/

theorem setOut_notMem_bitOps (c : Config) (v : Bool) : MicroOp.uSETOUT ∉ bitOps c v := by
  simp [bitOps, List.mem_replicate]

theorem setOut_notMem_byteLoop (c : Config) (bc : Nat) (sr : Byte) : MicroOp.uSETOUT ∉ byteLoop c bc sr := by
  induction bc generalizing sr with
  | zero => simp [byteLoop]
  | succ bc ih => simp [byteLoop, setOut_notMem_bitOps, ih]

theorem setOut_notMem_pixelLoop (c : Config) (ch : Nat) (a : Arg) : MicroOp.uSETOUT ∉ pixelLoop c ch a := by
  induction ch with
  | zero => simp [pixelLoop]
  | succ ch ih => simp [pixelLoop, byteOps, setOut_notMem_byteLoop, ih]

theorem setOut_mem_expand (c : Config) (i : Instr) : MicroOp.uSETOUT ∈ expand c i ↔ i = .init ∨ i = .pinOutput := by
  cases i with
  | init | pinOutput => simp [expand, expandInit, expandPinOutput]
  | nop | pinHigh | pinLow | delayUs | latch =>
    simp [expand, expandNop, expandPinHigh, expandPinLow, expandDelayUs, expandLatch]
  | emitBit v => simp [expand, expandEmitBit, setOut_notMem_bitOps]
  | emitByte x => simp [expand, expandEmitByte, byteOps, setOut_notMem_byteLoop]
  | sendPixel g r b => simp [expand, expandSendPixel, pixelOps, setOut_notMem_pixelLoop]

theorem doResetAt_dir (d : Nat) (s : State) : (doResetAt d s).dir = .IN := doReset_dir _

/-- Settles O39: of what a step does to the pin, only a uSETOUT at the head and a reset write the direction. -/
theorem onlySetOutAndResetChangeTheDirection : Obligations.OnlySetOutAndResetChangeTheDirection := by
  refine ⟨fun s t h => ?_, setOut_mem_expand cfg⟩
  obtain ⟨hr, hk⟩ | ⟨hr, hs, op, ops, st, ho, hk⟩ | ⟨hr, d, hk⟩ := (step_effect h).pin_cases
  · exact ⟨by simp [hr], fun _ hne => absurd hk.dir hne⟩
  · refine ⟨by simp [hr], fun _ hne => ?_⟩
    have hop : op = .uSETOUT := by by_contra hop; exact hne (by simp [hk.dir, hop])
    exact ⟨by simp [hk.dir, hop], hs, by simp [ho, hop]⟩
  · exact ⟨fun _ => hk.dir.trans (doResetAt_dir d s), by simp [hr]⟩

/-! ## The latch and the trace (10_state.md R26, R32) -/

/-- The latch changes only by the micro-operation that sets it so. -/
theorem op_eq_of_level_ne {c : Config} {op : MicroOp} {s : State} (h : (execMicro c op s).level ≠ s.level) :
    op = if (execMicro c op s).level then .uSETHI else .uSETLO := by
  cases op with
  | uNOP | uWAIT | uSETOUT => exact absurd rfl h
  | uSETHI | uSETLO => rfl

/-- Settles O40: of what a step does to the pin, only a pin micro-operation at the head and a reset write the latch or
the trace. -/
theorem onlyTheSequencerWritesThePin : Obligations.OnlyTheSequencerWritesThePin := by
  intro s t h hnr
  obtain ⟨-, hk⟩ | ⟨-, hs, op, ops, st, ho, hk⟩ | ⟨hr, -⟩ := (step_effect h).pin_cases
  · exact ⟨fun _ => ⟨hk.dir, hk.level, hk.trace⟩, fun hne => absurd hk.level hne, fun hne => absurd hk.trace hne⟩
  · refine ⟨by simp [hs], fun hne => ?_, fun hne => ⟨op, by simp [ho], ?_⟩⟩
    · rw [hk.level] at hne ⊢
      rw [ho, List.head?_cons, ← op_eq_of_level_ne hne]
    · rw [hk.trace] at hne
      exact pinOp_of_trace_ne hne
  · simp [hnr] at hr

/-! ## The time (10_state.md R30, R31) -/

theorem StepEffect.cyc_le {c : Config} {s t : State} (h : StepEffect c s t) : s.cyc ≤ t.cyc := by
  obtain ⟨-, hk⟩ | ⟨-, -, op, _, st, -, hk⟩ | ⟨-, d, hk⟩ := h.pin_cases
  · exact hk.later
  · have := hk.later
    simp only [execMicro_cyc, advance_cyc] at this
    omega
  · exact (Nat.le_add_right _ d).trans hk.later

theorem StepEffect.trace_prefix {c : Config} {s t : State} (h : StepEffect c s t) : s.trace <+: t.trace := by
  obtain ⟨-, hk⟩ | ⟨-, -, op, _, st, -, hk⟩ | ⟨-, d, hk⟩ := h.pin_cases
  · exact hk.trace ▸ List.prefix_rfl
  · exact hk.trace ▸ execMicro_trace_prefix c op (advance st s)
  · exact hk.trace ▸ doResetAt_trace_prefix d s

/-- The three steps that move the time. -/
theorem StepEffect.time_cases {c : Config} {s t : State} (h : StepEffect c s t) (hne : t.cyc ≠ s.cyc) :
    s.sequencerNext = true ∨
    (∃ n rest, s.inputs = .idle n :: rest ∧ s.pending = [] ∧ t.cyc = s.cyc + n) ∨
    (∃ d rest, s.inputs = .resetAt d :: rest ∧ t.cyc = s.cyc + d) := by
  cases h with
  | sequencer _ _ _ hs => exact .inl hs
  | idle n rest hi _ hp => exact .inr (.inl ⟨n, rest, hi, hp, rfl⟩)
  | resetAt d rest hi => exact .inr (.inr ⟨d, rest, hi, rfl⟩)
  | overrun | illegal | noinit | start | read | ignored | setIE | reset => exact absurd rfl hne

/-- Settles O41: the time and the trace grow in each of the things a step can do, and `Idle(n)` is made whenever the
block is not busy. -/
theorem timeMovesOnlyByItsSteps : Obligations.TimeMovesOnlyByItsSteps := by
  refine ⟨fun s t h => ?_, fun s n rest hi hp => step_ready hi (.inl hp)⟩
  have e := step_effect h
  exact ⟨e.cyc_le, e.trace_prefix, e.time_cases⟩

/-! ## The interrupt enable (10_state.md R29) -/

/-- The two steps that change the interrupt enable. -/
theorem StepEffect.ie_cases {c : Config} {s t : State} (h : StepEffect c s t) (hne : t.ie ≠ s.ie) :
    (∃ b rest, s.inputs = .setIE b :: rest ∧ t.ie = b ∧ s.pending = []) ∨ (s.resetNext = true ∧ t.ie = false) := by
  cases h with
  | sequencer => exact absurd (seqStep_ie _ _ _) hne
  | setIE b rest hi _ hp => exact .inl ⟨b, rest, hi, rfl, hp⟩
  | reset rest hi | resetAt d rest hi => exact .inr ⟨by simp [State.resetNext, hi], rfl⟩
  | overrun | illegal | noinit | start | read | ignored | idle => exact absurd rfl hne

/-- Settles O42: of all a step can do only `SetIE` and a reset write the enable, and `SetIE(b)` is made whenever the
block is not busy. -/
theorem onlySetIEAndResetChangeTheEnable : Obligations.OnlySetIEAndResetChangeTheEnable :=
  ⟨fun _ _ h hne => (step_effect h).ie_cases hne, fun _ _ _ hi hp => step_ready hi (.inl hp)⟩

/-! ## The loop registers (10_state.md R34) -/

/-- The bits a loop of `n` rounds takes from the top of the working value, as 42_byte_emitter.md R141 shifts them out. -/
def shiftedOut : (n : Nat) → (sr : Byte) → List Bool
  | 0, _ => []
  | n + 1, sr => sr.getLsbD 7 :: shiftedOut n (sr <<< 1)

@[simp] theorem length_shiftedOut (n : Nat) (sr : Byte) : (shiftedOut n sr).length = n := by
  induction n generalizing sr with
  | zero => rfl
  | succ n ih => simp [shiftedOut, ih]

theorem nopRun_replicate (n : Nat) (rest : List MicroOp) :
    nopRun (List.replicate n .uNOP ++ .uSETLO :: rest) = n := by
  induction n with
  | zero => rfl
  | succ n ih => rw [List.replicate_succ, List.cons_append, nopRun, ih]

theorem bitsToSend_nops (c : Config) (n : Nat) (rest : List MicroOp) :
    bitsToSend c (List.replicate n .uNOP ++ rest) = bitsToSend c rest := by
  induction n with
  | zero => rfl
  | succ n ih => rw [List.replicate_succ, List.cons_append, bitsToSend, ih]; simp

theorem nH_beq_nH1 {c : Config} (hc : c.Admitted) (v : Bool) : (nH c v == c.nH1) = v := by
  cases v with
  | false => simpa [nH] using nH_true_ne_false hc
  | true => simp [nH]

/-- The view reads one bit from the micro-operations of one bit: the two counts of an admitted configuration differ. -/
theorem bitsToSend_bitOps {c : Config} (hc : c.Admitted) (v : Bool) (rest : List MicroOp) :
    bitsToSend c (bitOps c v ++ rest) = v :: bitsToSend c rest := by
  simp [bitOps, bitsToSend, nopRun_replicate, bitsToSend_nops, nH_beq_nH1 hc]

theorem bitsToSend_byteLoop {c : Config} (hc : c.Admitted) (n : Nat) (sr : Byte) (rest : List MicroOp) :
    bitsToSend c (byteLoop c n sr ++ rest) = shiftedOut n sr ++ bitsToSend c rest := by
  induction n generalizing sr with
  | zero => rfl
  | succ n ih => simp [byteLoop, bitsToSend, bitsToSend_bitOps hc, ih, shiftedOut]

theorem length_bitsToSend_pixelLoop {c : Config} (hc : c.Admitted) (ch : Nat) (a : Arg) :
    (bitsToSend c (pixelLoop c ch a)).length = 8 * ch := by
  induction ch with
  | zero => rfl
  | succ ch ih => simp [pixelLoop, byteOps, bitsToSend, bitsToSend_byteLoop hc, ih]; omega

theorem shiftedOut_zero (n : Nat) : shiftedOut n 0 = List.replicate n false := by
  induction n with
  | zero => rfl
  | succ n ih => exact congrArg (false :: ·) ih

theorem shiftedOut_add (m n : Nat) (sr : Byte) :
    shiftedOut (m + n) sr = shiftedOut m sr ++ shiftedOut n (sr <<< m) := by
  induction m generalizing sr with
  | zero => simp [shiftedOut]
  | succ m ih => rw [Nat.succ_add, shiftedOut, ih, ← BitVec.shiftLeft_add, Nat.add_comm 1 m, shiftedOut, List.cons_append]

/-- One shift moves the top bit out of the byte and doubles the rest. -/
theorem topBit_add_shiftLeft (sr : Byte) : (sr.getLsbD 7).toNat * 256 + (sr <<< 1).toNat = 2 * sr.toNat := by
  have hlt := sr.isLt
  have htop : sr.getLsbD 7 = decide (128 ≤ sr.toNat) := BitVec.msb_eq_decide sr
  rw [htop, BitVec.toNat_shiftLeft, Nat.shiftLeft_eq]
  by_cases h : 128 ≤ sr.toNat <;> simp [h] <;> omega

/-- A number read and the working value behind it are one register: each bit read shifts it left by one. -/
theorem foldl_shiftedOut (n m : Nat) (sr : Byte) :
    (shiftedOut n sr).foldl (fun n b => 2 * n + b.toNat) m * 256 + (sr <<< n).toNat = 2 ^ n * (m * 256 + sr.toNat) := by
  induction n generalizing m sr with
  | zero => simp [shiftedOut]
  | succ n ih =>
    rw [shiftedOut, List.foldl_cons, Nat.add_comm n 1, BitVec.shiftLeft_add, ih]
    have hreg : (2 * m + (sr.getLsbD 7).toNat) * 256 + (sr <<< 1).toNat = 2 * (m * 256 + sr.toNat) := by
      linarith only [topBit_add_shiftLeft sr]
    rw [hreg]
    ring

theorem byteOfBits_shiftedOut (sr : Byte) : byteOfBits (shiftedOut 8 sr) = sr := by
  have hfold := foldl_shiftedOut 8 0 sr
  rw [BitVec.shiftLeft_eq_zero (Nat.le_refl 8)] at hfold
  have hvalue : (shiftedOut 8 sr).foldl (fun n b => 2 * n + b.toNat) 0 = sr.toNat := by
    simp only [BitVec.toNat_zero] at hfold
    omega
  rw [byteOfBits, hvalue, BitVec.ofNat_toNat, BitVec.setWidth_eq]

/-- A working value whose bits still to send are its top `n` is read back from them. -/
theorem packByte_shiftedOut {n : Nat} {sr : Byte} (hn : n ≤ 8) (hsr : sr <<< n = 0) :
    packByte (shiftedOut n sr) = sr := by
  have hbits : (shiftedOut n sr ++ List.replicate 8 false).take 8 = shiftedOut 8 sr := by
    conv_rhs => rw [← Nat.add_sub_cancel' hn, shiftedOut_add, hsr, shiftedOut_zero]
    rw [List.take_append, List.take_of_length_le (by simpa using hn), length_shiftedOut, List.take_replicate,
      Nat.min_eq_left (Nat.sub_le 8 n)]
  calc packByte (shiftedOut n sr) = byteOfBits (shiftedOut 8 sr) := by rw [← hbits]; rfl
    _ = sr := byteOfBits_shiftedOut sr

/-- The views while `bits` of the byte in flight and `ch` whole bytes after it are to send. -/
theorem views_of_bits {c : Config} {s : State} {bits later : List Bool} {ch : Nat}
    (h : bitsToSend c s.pending = bits ++ later) (hpos : 1 ≤ bits.length) (hle : bits.length ≤ 8)
    (hlater : later.length = 8 * ch) :
    s.viewBC c = bits.length ∧ s.viewSR c = packByte bits ∧ s.viewCH c = ch + 1 := by
  have hBC : s.viewBC c = bits.length := by
    simp only [State.viewBC, h, List.length_append, hlater]
    split <;> omega
  refine ⟨hBC, by rw [State.viewSR, hBC, h, List.take_left], ?_⟩
  simp only [State.viewCH, h, List.length_append, hlater]
  omega

/-- Settles O49: the pending list holds the bits the loop has still to shift out, and the views read them back. -/
theorem loopRegistersAreAViewOfThePendingList : Obligations.LoopRegistersAreAViewOfThePendingList := by
  intro c s ch a hc _
  refine ⟨fun x k hk hp => ?byte, fun hp => ?pixel, fun hp => ?idle⟩
  case byte =>
    have hbits : bitsToSend c s.pending = shiftedOut (8 - k) (x <<< k) ++ bitsToSend c (pixelLoop c ch a) := by
      rw [hp, bitsToSend_byteLoop hc]
    have hlen := length_shiftedOut (8 - k) (x <<< k)
    have hempty : x <<< k <<< (8 - k) = 0 := by
      rw [← BitVec.shiftLeft_add, BitVec.shiftLeft_eq_zero (by omega)]; rfl
    have hviews := views_of_bits hbits (by omega) (by omega) (length_bitsToSend_pixelLoop hc ch a)
    rwa [hlen, packByte_shiftedOut (Nat.sub_le 8 k) hempty] at hviews
  case pixel =>
    rw [State.viewCH, hp, length_bitsToSend_pixelLoop hc]
    omega
  case idle =>
    simp [State.viewBC, State.viewSR, State.viewCH, hp, bitsToSend, packByte]

end Sys2Proof.Machine
end

section
/-! PROOFS. The register window of 20_memory.md, and where a step stops. A read and a write are said once, by width and
offset; a move either answers a next state or is one the spec does not enable, and so does a step. -/

namespace Sys2Proof.Machine

/-! ## The register window (20_memory.md R52, R55, R56) -/

theorem applyMove_regRead (c : Config) (ex : Instr → State → Outcome) (off width : Nat) (s : State) :
    applyMove c ex (.regRead off width) s =
      if width = 4 ∧ off = 0 then .next (returnRead 0 s)
      else if width = 4 ∧ off = 4 then .next (returnRead (status s) s)
      else .fault (.noAccess off width) := by
  simp only [applyMove, regRead]
  split_ifs <;> rfl

theorem applyMove_regWrite (c : Config) (ex : Instr → State → Outcome) (off width : Nat) (w : Word) (s : State) :
    applyMove c ex (.regWrite off width w) s =
      if width = 4 ∧ off = 0 then accept c ex w s
      else if width = 4 ∧ off = 4 then .next s
      else .fault (.noAccess off width) := by
  simp only [applyMove, writeTarget]
  split_ifs <;> rfl

/-- Settles O12: a read that need not wait is made by the step, and a read answers by its width and offset. -/
theorem hostReadsOfTheWindow : Obligations.HostReadsOfTheWindow := by
  intro s off width rest hi hw
  rw [step_ready hi (hw.imp_right fun hk => by rw [hk]; rfl), applyMove_regRead]
  rfl

/-- Settles O13: a write that need not wait is made by the step, and a write answers by its width and offset; it is none
of the three steps that move the time. -/
theorem hostWritesOfTheWindow : Obligations.HostWritesOfTheWindow := by
  intro s off width w rest hi hw
  have hready : s.pending = [] ∨ (Move.regWrite off width w).hostWaits s.hostKind = false :=
    hw.imp_right fun hk => by rw [hk]; rfl
  refine ⟨(step_ready hi hready).trans (applyMove_regWrite ..), fun t ht => ?_⟩
  by_contra hne
  obtain hseq | ⟨n, rest', hidle, -⟩ | ⟨d, rest', hreset, -⟩ := (step_effect ht).time_cases hne
  · simp [State.sequencerNext, sequencerMoves_ready hi hready, hi] at hseq
  · simp [hi] at hidle
  · simp [hi] at hreset

/-! ## Where a step stops (notes/assumptions/8.md, notes/assumptions/9.md) -/

/-- The move is outside what its own rule enables, and waiting would not enable it: an access that does not exist
(20_memory.md R52), an `IssueBusy` when not busy or of a synchronous host (60_exceptions.md R215), a sequencer's turn with
nothing pending or with a stall while interrupts are disabled (40_sequencer.md R101), a `ResetAt(d)` outside the head
micro-operation (70_reset_and_hazards.md R241). -/
def Move.NotEnabled (c : Config) (s : State) : Move → Prop
  | .issueBusy _ => s.pending = [] ∨ s.hostKind = .sync
  | .regRead off width => ¬ (width = 4 ∧ (off = 0 ∨ off = 4))
  | .regWrite off width _ => ¬ (width = 4 ∧ (off = 0 ∨ off = 4))
  | .seq st => s.pending = [] ∨ (st ≠ 0 ∧ s.ie = false)
  | .resetAt d => ¬ (s.pending = [] ∧ d = 0) ∧ ∀ op ops, s.pending = op :: ops → op.cost c ≤ d
  | .issue _ | .readStatus | .idle _ | .setIE _ | .reset => False

/-- The acceptance of a word always answers a next state (30_encoding.md R80). -/
theorem accept_next (c : Config) (w : Word) (s : State) : ∃ t, accept c (execWith c) w s = .next t := by
  obtain ⟨-, e⟩ | ⟨-, -, e⟩ | ⟨-, _, -, e⟩ := accept_cases c w s <;> exact ⟨_, e⟩

/-- An access that reaches neither register does not exist (20_memory.md R52). -/
theorem noAccess_of_not_cmd_status {off width : Nat} (hcmd : ¬ (width = 4 ∧ off = 0))
    (hstatus : ¬ (width = 4 ∧ off = 4)) : ¬ (width = 4 ∧ (off = 0 ∨ off = 4)) :=
  fun ⟨hw, ho⟩ => ho.elim (hcmd ⟨hw, ·⟩) (hstatus ⟨hw, ·⟩)

theorem seqEnabled_eq_false {st : Nat} {s : State} :
    seqEnabled st s = false ↔ s.pending = [] ∨ (st ≠ 0 ∧ s.ie = false) := by
  rw [seqEnabled, Bool.and_eq_false_iff, busy_eq_false]
  simp

theorem resetAtEnabled_eq_false {c : Config} {d : Nat} {s : State} :
    resetAtEnabled c d s = false ↔
      ¬ (s.pending = [] ∧ d = 0) ∧ ∀ op ops, s.pending = op :: ops → op.cost c ≤ d := by
  cases hp : s.pending <;> simp [resetAtEnabled, hp]

theorem issueBusy_eq_false {s : State} :
    (s.busy && s.hostKind == .async) = false ↔ s.pending = [] ∨ s.hostKind = .sync := by
  cases hk : s.hostKind <;> simp [busy_eq_false]

/-- All that a move can answer: a next state, or, where it is not enabled, a stop. -/
theorem applyMove_next_or_stop (c : Config) (m : Move) (s : State) :
    (∃ t, applyMove c (execWith c) m s = .next t) ∨
    (m.NotEnabled c s ∧ ∃ r, r ≠ .runEnded ∧ applyMove c (execWith c) m s = .fault r) := by
  cases m with
  | issue w => exact .inl (accept_next c w s)
  | readStatus | idle | setIE | reset => exact .inl ⟨_, rfl⟩
  | issueBusy w =>
    cases h : s.busy && s.hostKind == .async with
    | true => simpa [applyMove, h] using .inl (accept_next c w s)
    | false => exact .inr ⟨issueBusy_eq_false.1 h, .issueBusyNotEnabled, nofun, by simp [applyMove, h]⟩
  | regRead off width =>
    rw [applyMove_regRead]
    split_ifs with hcmd hstatus
    · exact .inl ⟨_, rfl⟩
    · exact .inl ⟨_, rfl⟩
    · exact .inr ⟨noAccess_of_not_cmd_status hcmd hstatus, .noAccess off width, nofun, rfl⟩
  | regWrite off width w =>
    rw [applyMove_regWrite]
    split_ifs with hcmd hstatus
    · exact .inl (accept_next c w s)
    · exact .inl ⟨_, rfl⟩
    · exact .inr ⟨noAccess_of_not_cmd_status hcmd hstatus, .noAccess off width, nofun, rfl⟩
  | seq st =>
    cases h : seqEnabled st s with
    | true => exact .inl ⟨_, by rw [applyMove, if_pos h]⟩
    | false => exact .inr ⟨seqEnabled_eq_false.1 h, .seqNotEnabled, nofun, by simp [applyMove, h]⟩
  | resetAt d =>
    cases h : resetAtEnabled c d s with
    | true => exact .inl ⟨_, by rw [applyMove, if_pos h]⟩
    | false => exact .inr ⟨resetAtEnabled_eq_false.1 h, .resetNotInside, nofun, by simp [applyMove, h]⟩

/-- With no move left and nothing pending the run has ended (60_exceptions.md R220). -/
theorem step_runEnded {s : State} (hi : s.inputs = []) (hp : s.pending = []) : step s = .fault .runEnded := by
  simp [step, stepWith, sequencerMoves_idle hp, hi]

/-- All that a step can answer: a next state, the end of the run with no move left and nothing pending, or the stop of a
move that is not enabled. -/
theorem step_next_or_stop (s : State) :
    (∃ t, step s = .next t) ∨
    ((s.inputs = [] ∧ s.pending = []) ∧ step s = .fault .runEnded) ∨
    ∃ m rest r, s.inputs = m :: rest ∧ m.NotEnabled cfg s ∧ r ≠ .runEnded ∧ step s = .fault r := by
  rw [step_eq]
  cases hs : sequencerMoves s with
  | true => exact .inl ⟨_, stepWith_sequencer hs⟩
  | false =>
    cases hi : s.inputs with
    | nil =>
      have hp : s.pending = [] := by simpa [sequencerMoves, hi, busy_eq_false] using hs
      exact .inr (.inl ⟨⟨rfl, hp⟩, step_eq s ▸ step_runEnded hi hp⟩)
    | cons m rest =>
      rw [stepWith_move hi hs]
      obtain hnext | ⟨hm, r, hr, hstop⟩ := applyMove_next_or_stop cfg m { s with inputs := rest }
      · exact .inl hnext
      · exact .inr (.inr ⟨m, rest, r, rfl, hm, hr, hstop⟩)

theorem step_runEnded_iff (s : State) : step s = .fault .runEnded ↔ s.inputs = [] ∧ s.pending = [] := by
  refine ⟨fun h => ?_, fun ⟨hi, hp⟩ => step_runEnded hi hp⟩
  obtain ⟨t, e⟩ | ⟨hend, -⟩ | ⟨m, rest, r, -, -, hr, e⟩ := step_next_or_stop s
  · simp [e] at h
  · exact hend
  · simp [e, hr] at h

/-- Settles O45: a step stops at the run's end or by a move that is not enabled, and each stop has its own place. -/
theorem stepsStopOnlyWhereTheSpecHasNone : Obligations.StepsStopOnlyWhereTheSpecHasNone := by
  intro s
  refine ⟨step_runEnded_iff s, fun h => ?runEnds, fun r h => ?refused, fun r h hr => ?notEnabled⟩
  case runEnds =>
    obtain ⟨hi, hp⟩ := (step_runEnded_iff s).1 h
    exact runEnds_of_nil hi hp
  case refused =>
    obtain ⟨t, e⟩ | ⟨-, e⟩ | ⟨_, _, _, -, -, -, e⟩ := step_next_or_stop s <;> simp [e] at h
  case notEnabled =>
    obtain ⟨t, e⟩ | ⟨-, e⟩ | ⟨m, rest, _, hi, hm, -, -⟩ := step_next_or_stop s
    · simp [e] at h
    · simp [e, hr.symm] at h
    · exact ⟨m, rest, hi, hm⟩

end Sys2Proof.Machine
end

section
/-! PROOFS. The command word: the decoder and the encoder are inverse to one another, the legal words by their fields and
by the (match, mask) rows, and the names of the illegal ones (30_encoding.md R70 to R77). -/

namespace Sys2Proof

/-! ## From a command to its word and back (30_encoding.md R70 to R75) -/

theorem decode_encode (i : Instr) : decode (encode i) = .ok i := by
  rw [encode, decode, opField_packWord, rsvField_packWord, argField_packWord]
  cases i with
  | nop | pinOutput | pinHigh | pinLow | init | latch => rfl
  | delayUs u =>
    show formU16 (0#8 ++ u) .delayUs = _
    rw [formU16, if_pos (low16_high u), low16_low]
  | emitBit v =>
    show formB1 (0#23 ++ BitVec.ofBool v) .emitBit = _
    rw [formB1, if_pos (low1_high v), low1_low]
  | emitByte x =>
    show formU8 (0#16 ++ x) .emitByte = _
    rw [formU8, if_pos (low8_high x), low8_low]
  | sendPixel g r b =>
    show formP (pixelArg g r b) .sendPixel = _
    rw [formP, pixelArg_green, pixelArg_red, pixelArg_blue]

/-- Settles O1: the fields of the packed word are the command's opcode and argument, and each sub-form reads its operands
back. -/
theorem decodeOfEncodeIsTheCommand : Obligations.DecodeOfEncodeIsTheCommand := decode_encode

/-! ## The legal words (30_encoding.md R76) -/

/-- `Legal(w)`, by the sub-form of each opcode. -/
theorem legal_iff_fields (w : Word) :
    Legal w = true ↔
      rsvField w = 0 ∧
        (opField w ∈ [0x0#4, 0x1#4, 0x2#4, 0x3#4, 0x5#4, 0x9#4] ∧ argField w = 0 ∨
         opField w = 0x4#4 ∧ (argField w).extractLsb' 16 8 = 0 ∨
         opField w = 0x6#4 ∧ (argField w).extractLsb' 1 23 = 0 ∨
         opField w = 0x7#4 ∧ (argField w).extractLsb' 8 16 = 0 ∨
         opField w = 0x8#4) := by
  rw [Legal, Bool.and_eq_true, beq_iff_eq]
  refine and_congr_right fun _ => ?_
  obtain ⟨⟨n, hn⟩⟩ := opField w
  interval_cases n <;> simp

/-- A word with `RSV = 0` and the opcode and argument of a command is its word. -/
theorem encode_eq_of_fields {w : Word} {i : Instr} (hrsv : rsvField w = 0) (hop : opField w = i.opcode)
    (harg : i.argument = argField w) : encode i = w := by
  rw [encode, harg, ← hop, packWord_fields w hrsv]

/-- A legal word is the word of a command: its sub-form has the operands. -/
theorem exists_encode_of_legal {w : Word} (h : Legal w = true) : ∃ i, encode i = w := by
  obtain ⟨hrsv, ⟨hop, harg⟩ | ⟨hop, harg⟩ | ⟨hop, harg⟩ | ⟨hop, harg⟩ | hop⟩ := (legal_iff_fields w).1 h
  · simp only [List.mem_cons, List.not_mem_nil, or_false] at hop
    obtain hop | hop | hop | hop | hop | hop := hop
    · exact ⟨.nop, encode_eq_of_fields hrsv hop harg.symm⟩
    · exact ⟨.pinOutput, encode_eq_of_fields hrsv hop harg.symm⟩
    · exact ⟨.pinHigh, encode_eq_of_fields hrsv hop harg.symm⟩
    · exact ⟨.pinLow, encode_eq_of_fields hrsv hop harg.symm⟩
    · exact ⟨.init, encode_eq_of_fields hrsv hop harg.symm⟩
    · exact ⟨.latch, encode_eq_of_fields hrsv hop harg.symm⟩
  · exact ⟨.delayUs _, encode_eq_of_fields hrsv hop (arg_of_low16 _ harg)⟩
  · exact ⟨.emitBit _, encode_eq_of_fields hrsv hop (arg_of_low1 _ harg)⟩
  · exact ⟨.emitByte _, encode_eq_of_fields hrsv hop (arg_of_low8 _ harg)⟩
  · exact ⟨.sendPixel _ _ _, encode_eq_of_fields hrsv hop (pixelArg_fields _)⟩

/-! ## The illegal words (30_encoding.md R77) -/

theorem decode_reservedOpcode {w : Word} (hop : 9 < (opField w).toNat) : decode w = .error .reservedOpcode := by
  rw [decode, if_pos hop]

theorem decode_reservedField {w : Word} (hop : (opField w).toNat ≤ 9) (hrsv : rsvField w ≠ 0) :
    decode w = .error .reservedField := by
  rw [decode, if_neg (Nat.not_lt.2 hop), if_pos hrsv]

/-- What makes a word with an opcode of the table and `RSV = 0` illegal is its sub-form's check. -/
theorem decode_argumentField {w : Word} (hop : (opField w).toNat ≤ 9) (hrsv : rsvField w = 0) (h : Legal w = false) :
    decode w = .error .argumentField := by
  rw [decode, if_neg (Nat.not_lt.2 hop), if_neg (not_not.2 hrsv)]
  simp only [Legal, hrsv, beq_self_eq_true, Bool.true_and] at h
  generalize (opField w).toNat = n at hop h
  interval_cases n <;> simp_all [formZ, formU16, formB1, formU8]

/-- Settles O4: the decoder's three refusals, one lemma each. -/
theorem illegalWordsAreRefusedByName : Obligations.IllegalWordsAreRefusedByName :=
  fun _ => ⟨decode_reservedOpcode, decode_reservedField, decode_argumentField⟩

/-- An illegal word is refused: it is of one of the three classes. -/
theorem decode_illegal {w : Word} (h : Legal w = false) : ∃ e, decode w = .error e := by
  by_cases hop : (opField w).toNat ≤ 9
  · by_cases hrsv : rsvField w = 0
    · exact ⟨_, decode_argumentField hop hrsv h⟩
    · exact ⟨_, decode_reservedField hop hrsv⟩
  · exact ⟨_, decode_reservedOpcode (Nat.not_le.1 hop)⟩

theorem legal_of_decode {w : Word} {i : Instr} (h : decode w = .ok i) : Legal w = true := by
  by_contra hl
  obtain ⟨e, he⟩ := decode_illegal (Bool.not_eq_true _ ▸ hl)
  simp [he] at h

/-- A word decodes to a command exactly when it is the command's word (30_encoding.md R71, R72). -/
theorem decode_eq_ok_iff {w : Word} {i : Instr} : decode w = .ok i ↔ encode i = w := by
  refine ⟨fun h => ?_, fun h => h ▸ decode_encode i⟩
  obtain ⟨j, rfl⟩ := exists_encode_of_legal (legal_of_decode h)
  rw [decode_encode, Except.ok.injEq] at h
  rw [h]

/-- Settles O2: a legal word is the word of a command, and decoding it gives that command back. -/
theorem decoderAcceptsExactlyTheLegalWords : Obligations.DecoderAcceptsExactlyTheLegalWords :=
  fun _ => ⟨fun _ => decode_eq_ok_iff.1, fun ⟨_, h⟩ => legal_of_decode h,
    fun h => (exists_encode_of_legal h).imp fun _ => decode_eq_ok_iff.2⟩

/-- Settles O5: the eight words are the words of their commands. -/
theorem tableWordsDecode : Obligations.TableWordsDecode := by
  unfold Obligations.TableWordsDecode
  simp only [decode_eq_ok_iff]
  decide

/-! ## The (match, mask) rows (30_encoding.md R76) -/

/-- Every row fixes `OP` and `RSV = 0`, and asks for zeros in the argument. -/
theorem maskRows_fields : ∀ row ∈ maskRows,
    opField row.mask = BitVec.allOnes 4 ∧ rsvField row.mask = BitVec.allOnes 4 ∧ rsvField row.pattern = 0 ∧
      argField row.pattern = 0 := by decide

/-- What it is for a word to match a row, by its fields. -/
theorem matches_iff_fields {row : MaskRow} (hrow : row ∈ maskRows) (w : Word) :
    w &&& row.mask = row.pattern ↔
      rsvField w = 0 ∧ opField w = opField row.pattern ∧ argField w &&& argField row.mask = 0 := by
  obtain ⟨hopm, hrsvm, hrsvp, hargp⟩ := maskRows_fields row hrow
  have hop : opField (w &&& row.mask) = opField w := by
    rw [← BitVec.and_allOnes (x := opField w), ← hopm]; exact BitVec.extractLsb'_and
  have hrsv : rsvField (w &&& row.mask) = rsvField w := by
    rw [← BitVec.and_allOnes (x := rsvField w), ← hrsvm]; exact BitVec.extractLsb'_and
  have harg : argField (w &&& row.mask) = argField w &&& argField row.mask := BitVec.extractLsb'_and
  constructor
  · intro h
    rw [← hop, ← hrsv, ← harg, h]
    exact ⟨hrsvp, rfl, hargp⟩
  · intro ⟨hr, ho, ha⟩
    rw [← packWord_fields (w &&& row.mask) (hrsv.trans hr), ← packWord_fields row.pattern hrsvp, hop, ho, harg, ha,
      hargp]

/-- No two rows have the same opcode. -/
theorem maskRows_opField_injective : ∀ row ∈ maskRows, ∀ row' ∈ maskRows,
    opField row.pattern = opField row'.pattern → row = row' := by decide

/-- The mask of the bits from `k` up asks for zeros there. -/
theorem and_highMask_eq_zero_iff (a : Arg) {k n : Nat} (h : k + n = 24) :
    a &&& (BitVec.allOnes 24 <<< k) = 0 ↔ a.extractLsb' k n = 0 := by
  rw [BitVec.eq_of_getLsbD_eq_iff, BitVec.eq_of_getLsbD_eq_iff]
  simp only [BitVec.getLsbD_and, BitVec.getLsbD_shiftLeft, BitVec.getLsbD_extractLsb', BitVec.getLsbD_allOnes,
    BitVec.ofNat_eq_ofNat, BitVec.getLsbD_zero]
  constructor
  · intro hbits i hi
    simpa [hi, show k + i < 24 by omega, show i < 24 by omega] using hbits (k + i) (by omega)
  · intro hbits i hi
    by_cases hk : i < k
    · simp [hk]
    · have hbit := hbits (i - k) (by omega)
      rw [Nat.add_sub_cancel' (Nat.not_lt.1 hk), decide_eq_true (show i - k < n by omega), Bool.true_and] at hbit
      rw [hbit, Bool.false_and]

/-- The rows against the definition by fields, opcode by opcode: each sub-form's zeros are its row's mask. -/
theorem legal_iff_matches (w : Word) : Legal w = true ↔ ∃ row ∈ maskRows, w &&& row.mask = row.pattern := by
  rw [legal_iff_fields, exists_congr fun row => and_congr_right fun hrow => matches_iff_fields (row := row) hrow w]
  rw [← and_highMask_eq_zero_iff (argField w) (k := 16) rfl, ← and_highMask_eq_zero_iff (argField w) (k := 1) rfl,
    ← and_highMask_eq_zero_iff (argField w) (k := 8) rfl]
  have hall : argField w &&& 0xFFFFFF#24 = argField w := BitVec.and_allOnes
  generalize argField w = a at hall ⊢
  obtain ⟨⟨n, hn⟩⟩ := opField w
  interval_cases n <;> simp [maskRows, opField, argField, hall]

/-- Settles O3: by fields as the definition has it; a row gives the opcode and the zeros of its sub-form; no two rows have
the same opcode. -/
theorem legalIffOneMaskRowMatches : Obligations.LegalIffOneMaskRowMatches := by
  intro w
  refine ⟨legal_iff_fields w, legal_iff_matches w, fun row hrow row' hrow' h h' => ?_⟩
  obtain ⟨-, hop, -⟩ := (matches_iff_fields hrow w).1 h
  obtain ⟨-, hop', -⟩ := (matches_iff_fields hrow' w).1 h'
  exact maskRows_opField_injective row hrow row' hrow' (hop.symm.trans hop')

end Sys2Proof
end

section
/-! PROOFS. The assembler's lines encode as the tables of 30_encoding.md R79 and R81 say. -/

namespace Sys2Proof.Machine

/-! ## A word as an OR of its fields (30_encoding.md R70) -/

/-- Two fields side by side, extended to a word, are the OR of the two, the upper one shifted to its place. -/
theorem setWidth_append_eq_or {m n : Nat} (x : BitVec m) (y : BitVec n) :
    (x ++ y).setWidth 32 = (x.setWidth 32 <<< n) ||| y.setWidth 32 := by
  apply BitVec.eq_of_getLsbD_eq; intro i hi
  simp only [BitVec.getLsbD_setWidth, BitVec.getLsbD_append, BitVec.getLsbD_or, BitVec.getLsbD_shiftLeft, hi,
    decide_true, Bool.true_and]
  by_cases hn : i < n
  · simp [hn]
  · simp [hn, BitVec.getLsbD_of_ge y i (Nat.not_lt.1 hn), show i - n < 32 by omega]

/-- A word is its opcode's word with the argument ORed in. -/
theorem packWord_eq_or (op : BitVec 4) (a : Arg) : packWord op a = packWord op 0 ||| a.setWidth 32 := by
  have h (b : Arg) : packWord op b = ((op ++ 0#4).setWidth 32 <<< 24) ||| b.setWidth 32 := by
    rw [← setWidth_append_eq_or, packWord, BitVec.setWidth_eq]
  rw [h a, h 0, BitVec.ofNat_eq_ofNat, BitVec.setWidth_zero, BitVec.or_zero]

theorem setWidth_zero_append {m n : Nat} (x : BitVec n) : (0#m ++ x).setWidth 32 = x.setWidth 32 := by
  rw [setWidth_append_eq_or, BitVec.setWidth_zero, BitVec.zero_shiftLeft, BitVec.zero_or]

theorem setWidth_pixelArg (g r b : Byte) :
    (pixelArg g r b).setWidth 32 = (g.setWidth 32 <<< 16) ||| (r.setWidth 32 <<< 8) ||| b.setWidth 32 := by
  rw [pixelArg, setWidth_append_eq_or, setWidth_append_eq_or, BitVec.shiftLeft_or_distrib, ← BitVec.shiftLeft_add]

/-! ## The lines (30_encoding.md R79) -/

theorem fits_iff {width n : Nat} : fits width n = true ↔ n < 2 ^ width := decide_eq_true_iff

/-- The assembler on a line, where its numbers fit and where they do not. -/
theorem assemble_eq_ite {l : AsmLine} {p : Prop} [Decidable p] {ws : List Word} (hfit : l.wellFormed = true ↔ p)
    (hwords : p → AsmLine.words l = ws) : assemble l = if p then some ws else none := by
  rw [assemble]
  by_cases hp : p
  · rw [if_pos (hfit.2 hp), if_pos hp, hwords hp]
  · rw [if_neg (mt hfit.1 hp), if_neg hp]

theorem assemble_delayUs (u : Nat) :
    assemble (.delayUs u) = if u < 65536 then some [0x40000000 ||| BitVec.ofNat 32 u] else none := by
  refine assemble_eq_ite fits_iff fun hu => ?_
  rw [AsmLine.words, encode, packWord_eq_or, Instr.argument, setWidth_zero_append,
    BitVec.setWidth_ofNat_of_le_of_lt (by decide) hu, Instr.opcode, show packWord 0x4 0 = 0x40000000 from rfl]

theorem assemble_emitBit (v : Nat) :
    assemble (.emitBit v) = if v < 2 then some [0x60000000 ||| BitVec.ofNat 32 v] else none :=
  assemble_eq_ite fits_iff fun hv => by interval_cases v <;> rfl

theorem assemble_emitByte (x : Nat) :
    assemble (.emitByte x) = if x < 256 then some [0x70000000 ||| BitVec.ofNat 32 x] else none := by
  refine assemble_eq_ite fits_iff fun hx => ?_
  rw [AsmLine.words, encode, packWord_eq_or, Instr.argument, setWidth_zero_append,
    BitVec.setWidth_ofNat_of_le_of_lt (by decide) hx, Instr.opcode, show packWord 0x7 0 = 0x70000000 from rfl]

theorem assemble_sendPixel (g r b : Nat) :
    assemble (.sendPixel g r b) =
      if g < 256 ∧ r < 256 ∧ b < 256 then
        some [0x80000000 ||| (BitVec.ofNat 32 g <<< 16) ||| (BitVec.ofNat 32 r <<< 8) ||| BitVec.ofNat 32 b]
      else none := by
  refine assemble_eq_ite (by simp [AsmLine.wellFormed, fits_iff, and_assoc]) fun ⟨hg, hr, hb⟩ => ?_
  have channel {n : Nat} (h : n < 256) : (BitVec.ofNat 8 n).setWidth 32 = BitVec.ofNat 32 n :=
    BitVec.setWidth_ofNat_of_le_of_lt (by decide) h
  rw [AsmLine.words, encode, packWord_eq_or, Instr.argument, setWidth_pixelArg, channel hg, channel hr,
    channel hb, ← BitVec.or_assoc, ← BitVec.or_assoc, Instr.opcode, show packWord 0x8 0 = 0x80000000 from rfl]
  rfl

theorem assemble_rawWord (w : Nat) : assemble (.rawWord w) = if w < 2 ^ 32 then some [BitVec.ofNat 32 w] else none :=
  assemble_eq_ite fits_iff fun _ => rfl

/-- Settles O6: the lines without operands by computation, the others by the OR of their fields. -/
theorem assemblerEncodesAsTheTableSays : Obligations.AssemblerEncodesAsTheTableSays :=
  ⟨by decide, by decide, by decide, by decide, by decide, by decide, assemble_delayUs, assemble_emitBit,
    assemble_emitByte, assemble_sendPixel, assemble_rawWord⟩

/-- Settles O8: the pseudo-instructions' numbers and words are those of the lines they stand for. -/
theorem pseudoInstructionsExpand : Obligations.PseudoInstructionsExpand := by
  refine ⟨fun _ _ _ => rfl, fun r g b => ?pixelRgb, by decide, fun n => ?nops⟩
  case pixelRgb => rw [assemble, AsmLine.wellFormed, Bool.and_comm (fits 8 r)]; rfl
  case nops => rfl

end Sys2Proof.Machine
end

section
/-! PROOFS. Lines of text (30_encoding.md R79, R81): a mnemonic and its operands are read as written, so that the
disassembler's line is read back, and a pixel's named operands in any order. -/

namespace Sys2Proof.Machine

/-! ## The text of a number and of an operand -/

/-- The text is one word, and is read as the number. -/
structure NumberText (text : List Char) (n : Nat) : Prop where
  nonempty : text ≠ []
  wordChars : text.all isWordChar = true
  reads : readNumber text = some n

theorem NumberText.decimal (n : Nat) : NumberText (toString n).toList n where
  nonempty := toString_ne_nil n
  wordChars := toString_wordChars n
  reads := readNumber_toString n

theorem NumberText.hex {w : Nat} (h : w < 2 ^ 32) : NumberText ('0' :: 'x' :: hexDigits 8 w) w where
  nonempty := List.cons_ne_nil _ _
  wordChars := hexDigits_wordChars 8 w
  reads := by
    have e : readNumber ('0' :: 'x' :: hexDigits 8 w) = readDigits 16 (hexDigits 8 w) 0 := rfl
    rw [e, readDigits_hexDigits, Nat.zero_mul, Nat.zero_add, Nat.mod_eq_of_lt (show w < 16 ^ 8 from h)]

theorem readDigits_binary (bits : List Bool) (acc : Nat) :
    readDigits 2 (bits.map fun v => if v then '1' else '0') acc =
      some (bits.foldl (fun n v => 2 * n + v.toNat) acc) := by
  induction bits generalizing acc with
  | nil => rfl
  | cons v bits ih => cases v <;> exact ih _

/-- The text is read as the operand. -/
inductive OperandText : List Char → AsmOperand → Prop where
  | positional {text : List Char} {n : Nat} (h : NumberText text n) : OperandText text (.positional n)
  | named {key text : List Char} {n : Nat} (hne : key ≠ []) (hkey : key.all isWordChar = true) (h : NumberText text n) :
      OperandText (key ++ '=' :: text) (.named key n)

theorem OperandText.semicolon_notMem {text : List Char} {o : AsmOperand} (h : OperandText text o) : ';' ∉ text := by
  cases h with
  | positional h => exact semicolon_notMem_wordChars h.wordChars
  | named hne hkey h =>
    simp [semicolon_notMem_wordChars hkey, semicolon_notMem_wordChars h.wordChars]

/-- A name and its equals sign are two tokens. -/
theorem tokens_key_equals {key : List Char} (rest : List Char) (hne : key ≠ []) (hkey : key.all isWordChar = true) :
    tokens (key ++ '=' :: rest) [] = .word key :: .equals :: tokens rest [] := by
  rw [tokens_append _ _ hkey, tokens_equals, List.nil_append, flushWord_of_ne_nil _ hne]

theorem tokens_word_comma {cs : List Char} (rest : List Char) (hne : cs ≠ []) (h : cs.all isWordChar = true) :
    tokens (cs ++ ',' :: rest) [] = .word cs :: .comma :: tokens rest [] := by
  rw [tokens_append _ _ h, tokens_comma, List.nil_append, flushWord_of_ne_nil _ hne]

/-- An operand at the end of a line. -/
theorem OperandText.last {text : List Char} {o : AsmOperand} (h : OperandText text o) :
    operandsAfterComma (.comma :: tokens text []) = some [o] := by
  cases h with
  | positional h => simp [tokens_word_end h.nonempty h.wordChars, operandsAfterComma, h.reads]
  | named hne hkey h =>
    simp [tokens_key_equals _ hne hkey, tokens_word_end h.nonempty h.wordChars, operandsAfterComma, h.reads]

/-- An operand before a comma and a blank. -/
theorem OperandText.next {text rest : List Char} {o : AsmOperand} {ops : List AsmOperand} (h : OperandText text o)
    (hrest : operandsAfterComma (.comma :: tokens rest []) = some ops) :
    operandsAfterComma (.comma :: tokens (text ++ ',' :: ' ' :: rest) []) = some (o :: ops) := by
  have hblank : tokens (' ' :: rest) [] = tokens rest [] := tokens_space rest []
  cases h with
  | positional h => simp [tokens_word_comma _ h.nonempty h.wordChars, hblank, operandsAfterComma, h.reads, hrest]
  | named hne hkey h =>
    simp [tokens_key_equals _ hne hkey, tokens_word_comma _ h.nonempty h.wordChars, hblank, operandsAfterComma, h.reads,
      hrest]

/-! ## A mnemonic and its operands -/

/-- A mnemonic of the table is one word. -/
theorem mnemonic_word {m : List Char} {row : List AsmOperand → Option AsmLine} (h : asmRow m = some row) :
    m ≠ [] ∧ m.all isWordChar = true := by
  obtain ⟨entry, hfind, -⟩ := Option.map_eq_some_iff.1 h
  have hm : entry.1.toList = m := by simpa using List.find?_some hfind
  rw [← hm]
  exact asmTable_names entry (List.mem_of_find?_eq_some hfind)

theorem readOperands_of_afterComma {toks : List Token} {ops : List AsmOperand}
    (h : operandsAfterComma (.comma :: toks) = some ops) : readOperands toks = some ops := by
  cases toks with
  | nil => simp [operandsAfterComma] at h
  | cons _ _ => exact h

/-- A line of a mnemonic, a blank and operands is what the mnemonic's row makes of the operands. -/
theorem parseLine_operands {m text : List Char} {row : List AsmOperand → Option AsmLine} {ops : List AsmOperand}
    (hrow : asmRow m = some row) (htext : ';' ∉ text)
    (hops : operandsAfterComma (.comma :: tokens text []) = some ops) :
    parseLine (m ++ ' ' :: text) = (row ops).map some := by
  obtain ⟨hne, hword⟩ := mnemonic_word hrow
  have hcomment : ';' ∉ m ++ ' ' :: text := by simp [semicolon_notMem_wordChars hword, htext]
  rw [parseLine, stripComment_eq_self hcomment, tokens_word_space _ hne hword, lineOfTokens,
    readOperands_of_afterComma hops, hrow]
  exact Option.map_eq_bind.symm

/-- The text is a mnemonic and a blank, and the mnemonic takes the operands of the row. -/
def MnemonicText (text : String) (row : List AsmOperand → Option AsmLine) : Prop :=
  ∃ m : List Char, text.toList = m ++ [' '] ∧ asmRow m = some row

theorem mnemonicText_sendPixel : MnemonicText "SEND_PIXEL " (takesPixel .sendPixel) := ⟨"SEND_PIXEL".toList, rfl, rfl⟩

theorem mnemonicText_emitPixel : MnemonicText "EMIT_PIXEL " (takesPixel .emitPixel) := ⟨"EMIT_PIXEL".toList, rfl, rfl⟩

theorem mnemonicText_pixelRgb : MnemonicText "PIXEL_RGB " (takesThree .pixelRgb) := ⟨"PIXEL_RGB".toList, rfl, rfl⟩

theorem parseLine_oneOperand {m : String} {row : List AsmOperand → Option AsmLine} {x : List Char} {o : AsmOperand}
    (hm : MnemonicText m row) (hx : OperandText x o) : parseLine (m.toList ++ x) = (row [o]).map some := by
  obtain ⟨m', e, hrow⟩ := hm
  rw [e, List.append_assoc]
  exact parseLine_operands hrow hx.semicolon_notMem hx.last

theorem parseLine_number {m : String} {f : Nat → AsmLine} (hm : MnemonicText m (takesOne f)) (n : Nat) :
    parseLine (m ++ toString n).toList = some (some (f n)) := by
  rw [String.toList_append]
  exact parseLine_oneOperand hm (.positional (.decimal n))

/-- Three operands, parted by commas and blanks as the spec writes them. -/
theorem parseLine_threeOperands {m : String} {row : List AsmOperand → Option AsmLine} {x y z : List Char}
    {o p q : AsmOperand} (hm : MnemonicText m row) (hx : OperandText x o) (hy : OperandText y p) (hz : OperandText z q) :
    parseLine (m.toList ++ (x ++ ',' :: ' ' :: (y ++ ',' :: ' ' :: z))) = (row [o, p, q]).map some := by
  obtain ⟨m', e, hrow⟩ := hm
  rw [e, List.append_assoc]
  refine parseLine_operands hrow ?_ (hx.next (hy.next hz.last))
  simp [hx.semicolon_notMem, hy.semicolon_notMem, hz.semicolon_notMem]

theorem parseLine_positional {m : String} {row : List AsmOperand → Option AsmLine} (hm : MnemonicText m row)
    (a b c : Nat) :
    parseLine (m ++ toString a ++ ", " ++ toString b ++ ", " ++ toString c).toList =
      (row [.positional a, .positional b, .positional c]).map some := by
  rw [← parseLine_threeOperands hm (.positional (.decimal a)) (.positional (.decimal b)) (.positional (.decimal c))]
  simp only [String.toList_append, List.append_assoc]
  rfl

/-! ## Named operands in any order (30_encoding.md R79) -/

/-- The operand that gives the value to the name. -/
def namedOperand (x : String × Nat) : AsmOperand := .named x.1.toList x.2

/-- The text of a named operand. -/
def namedText (x : String × Nat) : List Char := x.1.toList ++ '=' :: (toString x.2).toList

/-- The names of a pixel's channels (30_encoding.md R79). -/
def channels : List String := ["g", "r", "b"]

theorem operandText_named {x : String × Nat} (h : x.1 ∈ channels) : OperandText (namedText x) (namedOperand x) := by
  have hword : ∀ name ∈ channels, name.toList ≠ [] ∧ name.toList.all isWordChar = true := by decide
  exact .named (hword _ h).1 (hword _ h).2 (.decimal x.2)

theorem operandNamed_eq_lookup (c : Char) (l : List (String × Nat)) :
    operandNamed c (l.map namedOperand) = l.lookup (String.singleton c) := by
  induction l with
  | nil => rfl
  | cons x l ih =>
    have hname : x.1.toList = [c] ↔ x.1 = String.singleton c := by
      rw [← String.toList_singleton, String.toList_inj]
    have hhead : operandNamed c ((x :: l).map namedOperand) =
        if x.1.toList = [c] then some x.2 else operandNamed c (l.map namedOperand) := by
      simp only [operandNamed, List.map_cons, List.findSome?_cons, namedOperand]
      split_ifs <;> rfl
    rw [hhead, ih, List.lookup_cons]
    by_cases hx : x.1 = String.singleton c
    · simp [hx]
    · rw [if_neg (mt hname.1 hx), beq_false_of_ne (Ne.symm hx)]

theorem lookup_of_mem {l : List (String × Nat)} {k : String} {n : Nat} (hnodup : (l.map Prod.fst).Nodup)
    (h : (k, n) ∈ l) : l.lookup k = some n := by
  induction l with
  | nil => simp at h
  | cons x l ih =>
    rw [List.map_cons, List.nodup_cons] at hnodup
    obtain rfl | h := List.mem_cons.1 h
    · exact List.lookup_cons_self
    · have hne : k ≠ x.1 := fun e => hnodup.1 (e ▸ List.mem_map_of_mem h)
      rw [List.lookup_cons, beq_false_of_ne hne]
      exact ih hnodup.2 h

theorem takesPixel_named (f : Nat → Nat → Nat → AsmLine) (x y z : String × Nat) :
    takesPixel f ([x, y, z].map namedOperand) = (do
      return f (← [x, y, z].lookup "g") (← [x, y, z].lookup "r") (← [x, y, z].lookup "b")) := by
  have h (c : Char) := operandNamed_eq_lookup c [x, y, z]
  show (do return f (← operandNamed 'g' _) (← operandNamed 'r' _) (← operandNamed 'b' _)) = _
  rw [h, h, h]
  rfl

theorem takesPixel_perm (f : Nat → Nat → Nat → AsmLine) {x y z : String × Nat} {g r b : Nat}
    (h : [x, y, z].Perm [("g", g), ("r", r), ("b", b)]) :
    takesPixel f ([x, y, z].map namedOperand) = some (f g r b) := by
  have hnodup : ([x, y, z].map Prod.fst).Nodup := (h.map Prod.fst).nodup_iff.2 (by simp)
  have value {k : String} {n : Nat} (hk : (k, n) ∈ [("g", g), ("r", r), ("b", b)]) : [x, y, z].lookup k = some n :=
    lookup_of_mem hnodup (h.mem_iff.2 hk)
  rw [takesPixel_named, value (k := "g") (n := g) (by simp), value (k := "r") (n := r) (by simp),
    value (k := "b") (n := b) (by simp)]
  rfl

theorem takesPixel_not_perm (f : Nat → Nat → Nat → AsmLine) {x y z : String × Nat}
    (h : ¬ [x.1, y.1, z.1].Perm channels) : takesPixel f ([x, y, z].map namedOperand) = none := by
  obtain ⟨k, hk, hmissing⟩ : ∃ k ∈ channels, k ∉ [x.1, y.1, z.1] := by
    by_contra! hall
    exact h ((List.subperm_of_subset (by decide) hall).perm_of_length_le (Nat.le_refl 3)).symm
  have hnone : [x, y, z].lookup k = none := by
    simpa [List.lookup_eq_none_iff] using hmissing
  rw [takesPixel_named]
  simp only [channels, List.mem_cons, List.not_mem_nil, or_false] at hk
  obtain rfl | rfl | rfl := hk <;> rw [hnone] <;> simp

/-- The line of three named operands: the pixel, or a refusal. -/
theorem parseLine_named {m : String} {f : Nat → Nat → Nat → AsmLine} (hm : MnemonicText m (takesPixel f))
    {x y z : String × Nat} (hx : x.1 ∈ channels) (hy : y.1 ∈ channels) (hz : z.1 ∈ channels) :
    parseLine (m ++ x.1 ++ "=" ++ toString x.2 ++ ", " ++ y.1 ++ "=" ++ toString y.2 ++ ", " ++
        z.1 ++ "=" ++ toString z.2).toList = (takesPixel f ([x, y, z].map namedOperand)).map some := by
  refine Eq.trans ?_ (parseLine_threeOperands hm (operandText_named hx) (operandText_named hy) (operandText_named hz))
  simp only [String.toList_append, List.append_assoc, namedText, List.cons_append]
  rfl

/-- A pixel in the form the disassembler prints. -/
theorem parseLine_pixel {m : String} {f : Nat → Nat → Nat → AsmLine} (hm : MnemonicText m (takesPixel f))
    (g r b : Nat) :
    parseLine (m ++ "g=" ++ toString g ++ ", r=" ++ toString r ++ ", b=" ++ toString b).toList =
      some (some (f g r b)) := by
  have h := parseLine_named hm (x := ("g", g)) (y := ("r", r)) (z := ("b", b)) (by simp [channels]) (by simp [channels])
    (by simp [channels])
  rw [takesPixel_perm f (List.Perm.refl _)] at h
  refine Eq.trans ?_ h
  simp only [String.toList_append, List.append_assoc]
  rfl

/-! ## The disassembler's line (30_encoding.md R79) -/

theorem render_rawWord (w : Nat) :
    (render (.rawWord w)).toList = ".word ".toList ++ '0' :: 'x' :: hexDigits 8 w := by
  have e : render (.rawWord w) = ".word 0x" ++ String.ofList (hexDigits 8 w) := rfl
  rw [e, String.toList_append, String.toList_ofList (l := hexDigits 8 w)]
  rfl

/-- A line as it is printed is read back. -/
theorem parseLine_render (l : AsmLine) (h : l.wellFormed = true) : parseLine (render l).toList = some (some l) := by
  cases l with
  | nop | pinOutput | pinHigh | pinLow | init | latch | pixelOff => decide
  | delayUs u => exact parseLine_number ⟨"DELAY_US".toList, rfl, rfl⟩ u
  | emitBit v => exact parseLine_number ⟨"EMIT_BIT".toList, rfl, rfl⟩ v
  | emitByte x => exact parseLine_number ⟨"EMIT_BYTE".toList, rfl, rfl⟩ x
  | nops n => exact parseLine_number ⟨"NOPS".toList, rfl, rfl⟩ n
  | rawWord w =>
    rw [render_rawWord]
    exact parseLine_oneOperand ⟨".word".toList, rfl, rfl⟩ (.positional (.hex (fits_iff.1 h)))
  | sendPixel g r b => exact parseLine_pixel mnemonicText_sendPixel g r b
  | emitPixel g r b => exact parseLine_pixel mnemonicText_emitPixel g r b
  | pixelRgb r g b => exact parseLine_positional mnemonicText_pixelRgb r g b

theorem assembleText_singleton {line : List Char} {l : AsmLine} (h : parseLine line = some (some l)) :
    assembleText [line] = assemble l := by
  simp [assembleText, h]

/-- The line of a command assembles to its word. -/
theorem assemble_lineOf (i : Instr) : assemble (lineOf i) = some [encode i] := by
  cases i with
  | nop | pinOutput | pinHigh | pinLow | init | latch => rfl
  | emitBit v => cases v <;> rfl
  | delayUs u => simp [assemble, lineOf, AsmLine.wellFormed, fits_iff, AsmLine.words, u.isLt]
  | emitByte x => simp [assemble, lineOf, AsmLine.wellFormed, fits_iff, AsmLine.words, x.isLt]
  | sendPixel g r b => simp [assemble, lineOf, AsmLine.wellFormed, fits_iff, AsmLine.words, g.isLt, r.isLt, b.isLt]

theorem assemble_disassemble (w : Word) : assemble (disassemble w) = some [w] := by
  rw [disassemble]
  cases h : decode w with
  | ok i =>
    show assemble (lineOf i) = _
    rw [assemble_lineOf, decode_eq_ok_iff.1 h]
  | error e =>
    show assemble (.rawWord w.toNat) = _
    rw [assemble_rawWord, if_pos w.isLt, BitVec.ofNat_toNat, BitVec.setWidth_eq]

/-- A line that assembles has numbers that fit. -/
theorem wellFormed_of_assemble {l : AsmLine} {ws : List Word} (h : assemble l = some ws) : l.wellFormed = true := by
  by_contra hl
  simp [assemble, hl] at h

/-- Settles O7: the line of a word assembles to it, so its numbers fit, and its text is read back as that line. -/
theorem assembleOfDisassembleIsTheWord : Obligations.AssembleOfDisassembleIsTheWord := by
  intro w
  have hline := assemble_disassemble w
  exact ⟨hline, (assembleText_singleton (parseLine_render _ (wellFormed_of_assemble hline))).trans hline⟩

/-! ## Lines as written (30_encoding.md R79, R81) -/

theorem parseLine_comment (line comment : List Char) : parseLine (line ++ ';' :: comment) = parseLine line := by
  rw [parseLine, stripComment_append, parseLine]

theorem readNumber_binary {bits : List Bool} (h : bits ≠ []) :
    readNumber ('0' :: 'b' :: bits.map fun v => if v then '1' else '0') =
      some (bits.foldl (fun n v => 2 * n + v.toNat) 0) := by
  cases bits with
  | nil => exact absurd rfl h
  | cons v bits => exact readDigits_binary (v :: bits) 0

/-- Settles O59: the named form is the pixel of the three names' values, or is refused for a missing name; the positional
form takes the operands in order. -/
theorem linesOfTextAreReadAsWritten : Obligations.LinesOfTextAreReadAsWritten := by
  refine ⟨fun x y z hx hy hz => ⟨fun g r b hperm => ?perm, fun hperm => ?notPerm⟩, fun g r b => ?positional,
    parseLine_comment, fun _ => readNumber_binary⟩
  case perm =>
    have named {m f} (hm : MnemonicText m (takesPixel f)) :=
      (parseLine_named hm hx hy hz).trans (congrArg _ (takesPixel_perm f hperm))
    exact ⟨named mnemonicText_sendPixel, named mnemonicText_emitPixel⟩
  case notPerm =>
    have named {m f} (hm : MnemonicText m (takesPixel f)) :=
      (parseLine_named hm hx hy hz).trans (congrArg _ (takesPixel_not_perm f hperm))
    exact ⟨named mnemonicText_sendPixel, named mnemonicText_emitPixel⟩
  case positional =>
    exact ⟨parseLine_positional mnemonicText_sendPixel g r b, parseLine_positional mnemonicText_emitPixel g r b,
      parseLine_positional mnemonicText_pixelRgb g r b⟩

end Sys2Proof.Machine
end

section
/-! PROOFS. The acceptance of a command (30_encoding.md R80): what it leaves unchanged, and that a step runs the command a
written word decodes to. -/

namespace Sys2Proof.Machine

/-- Settles O29: accepting a command is an overrun, a NOINIT or the start of it, and each writes only its own fields. -/
theorem acceptingACommandLeavesTheRest : Obligations.AcceptingACommandLeavesTheRest := by
  intro i s t h
  rw [exec_eq] at h
  cases h
  obtain ⟨hp, e⟩ | ⟨hp, -, hd, e⟩ | ⟨hp, -, e⟩ := acceptCommand_cases cfg i.needsInit (expand cfg i) s
  · simp [e, hp]
  · simp [e, hp, hd]
  · simp [e, hp]

/-- Accepting the word of a command is running the command: while busy each is an overrun, and otherwise the word is
decoded. -/
theorem accept_decoded {w : Word} {i : Instr} (h : decode w = .ok i) (s : State) : accept cfg exec w s = exec i s := by
  cases hb : s.busy with
  | true => rw [accept, if_pos hb, exec_busy (busy_eq_true.1 hb)]
  | false => simp [accept, hb, h]

theorem step_issue {s : State} {w : Word} {i : Instr} {rest : List Move} (h : decode w = .ok i)
    (hi : s.inputs = .issue w :: rest) (hp : s.pending = []) : step s = exec i { s with inputs := rest } := by
  rw [step_ready hi (.inl hp)]
  exact accept_decoded h _

theorem step_issueBusy {s : State} {w : Word} {i : Instr} {rest : List Move} (h : decode w = .ok i)
    (hi : s.inputs = .issueBusy w :: rest) (hp : s.pending ≠ []) (hk : s.hostKind = .async) :
    step s = exec i { s with inputs := rest } := by
  have hbusy : (({ s with inputs := rest } : State).busy && s.hostKind == .async) = true :=
    (Bool.and_eq_true _ _).mpr ⟨busy_eq_true.2 hp, beq_iff_eq.2 hk⟩
  rw [step_ready hi (.inr rfl)]
  exact (if_pos hbusy).trans (accept_decoded h _)

/-- Settles O14: the two moves that write a word, and the placed word, which is one of them by BUSY. -/
theorem stepRunsTheDecodedCommand : Obligations.StepRunsTheDecodedCommand := by
  intro s w i h
  refine ⟨fun rest => step_issue h, fun rest => step_issueBusy h, ?placed⟩
  case placed =>
    rintro n rfl
    by_cases hp : s.pending = []
    · rw [if_pos hp, State.withFetchWord, placeWord, if_neg (by simp [busy_eq_false.2 hp])]
      exact step_issue h rfl hp
    · rw [if_neg hp, State.withFetchWord, placeWord, if_pos (busy_eq_true.2 hp)]
      exact step_issueBusy h rfl hp rfl

end Sys2Proof.Machine
end

section
/-! PROOFS. The sequencer of 40_sequencer.md: what a micro-operation answers, what completing a command in flight leaves
unchanged, that the machine's steps complete it, and the primitive commands. -/

namespace Sys2Proof.Machine

/-! ## The words of the primitive commands (30_encoding.md R73, R76) -/

/-- A command with no operand has one legal word. -/
theorem legal_eq_false_of_formZ {w : Word} {i : Instr} (hz : i.opcode ∈ [0x0#4, 0x1#4, 0x2#4, 0x3#4, 0x5#4, 0x9#4])
    (harg : i.argument = 0) (hop : opField w = i.opcode) (hne : w ≠ encode i) : Legal w = false := by
  by_contra hl
  obtain ⟨hrsv, hform⟩ := (legal_iff_fields w).1 (Bool.eq_true_of_not_eq_false hl)
  obtain ⟨-, hw⟩ | ⟨h, -⟩ | ⟨h, -⟩ | ⟨h, -⟩ | h := hform
  · exact hne (encode_eq_of_fields hrsv hop (harg.trans hw.symm)).symm
  all_goals
    rw [← hop, h] at hz
    exact absurd hz (by decide)

theorem encode_delayUs (u : Micros) : encode (.delayUs u) = 0x4000#16 ++ u := by
  apply BitVec.eq_of_toNat_eq
  show (0x4#4 ++ 0#4 ++ (0#8 ++ u)).toNat = _
  simp only [BitVec.toNat_append]
  simp

/-- A legal word with the opcode of DELAY_US has 0 above its microsecond count. -/
theorem legal_eq_false_of_delayUs {w : Word} (hop : opField w = 0x4#4) (hne : w.extractLsb' 16 12 ≠ 0) :
    Legal w = false := by
  by_contra hl
  obtain ⟨hrsv, hform⟩ := (legal_iff_fields w).1 (Bool.eq_true_of_not_eq_false hl)
  have harg : (argField w).extractLsb' 16 8 = 0 := by simpa [hop] using hform
  have hw : encode (.delayUs _) = w := encode_eq_of_fields hrsv hop (arg_of_low16 _ harg)
  rw [← hw, encode_delayUs, BitVec.extractLsb'_append_eq_of_le (by decide)] at hne
  exact hne (by decide)

/-! ## What a micro-operation answers (40_sequencer.md R102 to R107) -/

theorem execMicro_setOut (c : Config) (s : State) :
    execMicro c .uSETOUT s =
      { s with
        dir := .OUT
        cyc := s.cyc + c.cPin
        trace := if s.lastPin = some (if s.level then .H else .L) then s.trace
                 else s.trace ++ [(s.cyc + c.cPin, if s.level then .H else .L)] } := rfl

theorem execMicro_setHi (c : Config) (s : State) :
    execMicro c .uSETHI s =
      { s with
        level := true
        cyc := s.cyc + c.cPin
        trace := if s.lastPin = some (if s.dir = .OUT then .H else .Z) then s.trace
                 else s.trace ++ [(s.cyc + c.cPin, if s.dir = .OUT then .H else .Z)] } := by
  have heff : ({ advance c.cPin s with level := true } : State).eff = if s.dir = .OUT then .H else .Z := by
    cases hd : s.dir <;> simp [State.eff, hd]
  rw [execMicro, setpin, heff]
  rfl

theorem execMicro_setLo (c : Config) (s : State) :
    execMicro c .uSETLO s =
      { s with
        level := false
        cyc := s.cyc + c.cPin
        trace := if s.lastPin = some (if s.dir = .OUT then .L else .Z) then s.trace
                 else s.trace ++ [(s.cyc + c.cPin, if s.dir = .OUT then .L else .Z)] } := by
  have heff : ({ advance c.cPin s with level := false } : State).eff = if s.dir = .OUT then .L else .Z := by
    cases hd : s.dir <;> simp [State.eff, hd]
  rw [execMicro, setpin, heff]
  rfl

/-! ## The sequencer's step (40_sequencer.md R101) -/

/-- An explicit turn of the sequencer executes the head micro-operation after its stall. -/
theorem step_seq {s : State} {st : Nat} {rest : List Move} {op : MicroOp} {ops : List MicroOp}
    (hi : s.inputs = .seq st :: rest) (ho : s.pending = op :: ops) (hst : st = 0 ∨ s.ie = true) :
    step s = .next { execMicro cfg op (advance st s) with inputs := rest, pending := ops } := by
  have hen : seqEnabled st s = true := by simpa [seqEnabled, State.busy, ho] using hst
  rw [step_ready hi (.inr rfl), applyMove]
  refine (if_pos hen).trans ?_
  rw [seqStep_cons (s := { s with inputs := rest }) ho]
  cases op <;> rfl

/-- A turn that is not enabled is no step. -/
theorem step_seq_stop {s : State} {st : Nat} {rest : List Move} (hi : s.inputs = .seq st :: rest)
    (h : seqEnabled st s = false) : step s = .fault .seqNotEnabled := by
  rw [step_ready hi (.inr rfl), applyMove]
  exact if_neg (Bool.eq_false_iff.1 h)

/-- Settles O32: a turn executes the head micro-operation, and each answers what its rule says. -/
theorem sequencerExecutesTheHeadMicroOp : Obligations.SequencerExecutesTheHeadMicroOp := by
  intro s st rest hi
  refine ⟨fun op ops ho hst => ?_, fun hno => step_seq_stop hi (seqEnabled_eq_false.2 hno)⟩
  rw [step_seq hi ho hst]
  cases op with
  | uNOP | uWAIT | uSETOUT => rfl
  | uSETHI => rw [execMicro_setHi]; rfl
  | uSETLO => rw [execMicro_setLo]; rfl

/-! ## Completing the command in flight -/

theorem runOps_dir {c : Config} {ops : List MicroOp} (h : MicroOp.uSETOUT ∉ ops) (s : State) :
    (runOps c ops s).dir = s.dir := by
  induction ops generalizing s with
  | nil => rfl
  | cons op ops ih =>
    obtain ⟨hop, hops⟩ := not_or.1 (mt List.mem_cons.2 h)
    rw [runOps, ih hops, execMicro_dir, if_neg (Ne.symm hop)]

theorem runOps_level {c : Config} {ops : List MicroOp} (hhi : MicroOp.uSETHI ∉ ops) (hlo : MicroOp.uSETLO ∉ ops)
    (s : State) : (runOps c ops s).level = s.level := by
  induction ops generalizing s with
  | nil => rfl
  | cons op ops ih =>
    obtain ⟨hop, hops⟩ := not_or.1 (mt List.mem_cons.2 hhi)
    obtain ⟨hop', hops'⟩ := not_or.1 (mt List.mem_cons.2 hlo)
    rw [runOps, ih hops hops', execMicro_level, if_neg (Ne.symm hop), if_neg (Ne.symm hop')]

theorem runOps_trace_prefix (c : Config) (ops : List MicroOp) (s : State) : s.trace <+: (runOps c ops s).trace := by
  induction ops generalizing s with
  | nil => exact List.prefix_rfl
  | cons op ops ih => exact (execMicro_trace_prefix c op s).trans (ih _)

/-- Settles O30: the frame of each micro-operation, over the pending list. -/
theorem completingACommandLeavesTheRest : Obligations.CompletingACommandLeavesTheRest := fun s =>
  ⟨settle_fIllegal cfg s, settle_fNoinit cfg s, settle_fOverrun cfg s, settle_ie cfg s, settle_inputs cfg s,
    settle_hostKind cfg s, settle_hostReads cfg s, settle_draws cfg s, settle_pending cfg s,
    runOps_trace_prefix cfg s.pending s, settle_cyc cfg s, fun h => runOps_dir h s, fun hhi hlo => runOps_level hhi hlo s⟩

/-- With nothing pending there is nothing to complete. -/
theorem settle_idle (c : Config) {s : State} (h : s.pending = []) : settle c s = s := by
  rw [settle, h, runOps, ← h]

/-- From an idle state the micro-operations alone give the state in which they complete. -/
theorem settle_withPending_idle (c : Config) {s : State} (h : s.pending = []) (ops : List MicroOp) :
    settle c { s with pending := ops } = runOps c ops s := by
  have hp : (runOps c ops s).pending = [] := (runOps_pending c ops s).trans h
  rw [settle_withPending, ← hp]

/-- The sequencer's step without a stall does not change where the command in flight completes. -/
theorem settle_seqStep (c : Config) (s : State) : settle c (seqStep c 0 s) = settle c s := by
  cases h : s.pending with
  | nil => rw [seqStep, h]
  | cons op ops => rw [seqStep_cons h, settle_withPending, settle, h]; rfl

theorem stepWith_undisturbed {c : Config} {ex : Instr → State → Outcome} {s : State} (hp : s.pending ≠ [])
    (hu : s.undisturbed = true) (hie : s.ie = false) : stepWith c ex s = .next (seqStep c 0 s) := by
  have hseq : sequencerMoves s = true := (Bool.and_eq_true _ _).mpr ⟨busy_eq_true.2 hp, hu⟩
  rw [stepWith_sequencer hseq, seqStepDrawn, hie]
  rfl

theorem undisturbed_seqStep (c : Config) (st : Nat) (s : State) : (seqStep c st s).undisturbed = s.undisturbed := by
  simp only [State.undisturbed, seqStep_inputs, seqStep_hostKind]

/-- One step for each pending micro-operation completes the command in flight. -/
theorem runWith_eq_settle (c : Config) {n : Nat} {s : State} (hn : s.pending.length = n) (hu : s.undisturbed = true)
    (hie : s.ie = false) : runWith c n s = .next (settle c s) := by
  induction n generalizing s with
  | zero => rw [settle_idle c (List.eq_nil_of_length_eq_zero hn), runWith]
  | succ n ih =>
    have hp : s.pending ≠ [] := List.ne_nil_of_length_eq_add_one hn
    rw [runWith, stepWith_undisturbed hp hu hie, ← settle_seqStep]
    exact ih (by simp [hn]) ((undisturbed_seqStep c 0 s).trans hu) ((seqStep_ie c 0 s).trans hie)

/-- Settles O34: by induction on the number of pending micro-operations, each executed by one step. -/
theorem stepsReachTheSettledState : Obligations.StepsReachTheSettledState := fun s hu hie =>
  ⟨(run_eq_runWith _ s).trans (runWith_eq_settle cfg rfl hu hie), settle_cyc cfg s⟩

/-! ## The primitive commands (40_sequencer.md R110 to R114) -/

theorem settle_nop {c : Config} (hc : c.Admitted) {s : State} (hp : s.pending = []) :
    settle c { s with pending := [.uWAIT c.cCmd, .uNOP] } = { s with cyc := s.cyc + c.cCmd + 1 } := by
  rw [settle_withPending_idle c hp, ← hc.cNop_one]
  rfl

/-- Settles O19: the dispatch wait and one no-operation advance the time. -/
theorem nopRunsAndOnlySpendsTime : Obligations.NopRunsAndOnlySpendsTime :=
  ⟨by decide, fun _ hp => exec_start hp (.inl rfl), fun _ _ hc hp => settle_nop hc hp, fun _ hp => exec_busy hp,
    fun _ => legal_eq_false_of_formZ (i := .nop) (by decide) rfl⟩

/-- PIN_OUTPUT makes an event exactly where the pin was not driven. -/
theorem settle_pinOutput (c : Config) {s : State} (hp : s.pending = []) (hshows : s.lastPin = some s.eff) :
    settle c { s with pending := [.uWAIT c.cCmd, .uSETOUT] } =
      { s with
        dir := .OUT
        cyc := s.cyc + c.cCmd + c.cPin
        trace := if s.dir = .OUT then s.trace
                 else s.trace ++ [(s.cyc + c.cCmd + c.cPin, if s.level then .H else .L)] } := by
  have hsame : s.lastPin = some (if s.level then .H else .L) ↔ s.dir = .OUT := by
    rw [hshows]
    cases hd : s.dir <;> cases hl : s.level <;> simp [State.eff, hd, hl]
  rw [settle_withPending_idle c hp, runOps, runOps, runOps, execMicro_setOut, ← if_congr hsame rfl rfl]
  rfl

/-- Settles O20: the acceptance by `exec_start` and `exec_busy`, the completion by the uSETOUT. -/
theorem pinOutputDrivesThePin : Obligations.PinOutputDrivesThePin :=
  ⟨by decide, fun _ hp => exec_start hp (.inl rfl), fun c _ _ hp hshows => settle_pinOutput c hp hshows,
    fun _ hp => exec_busy hp, fun _ => legal_eq_false_of_formZ (i := .pinOutput) (by decide) rfl⟩

/-- PIN_HIGH makes an event exactly where the pin was driven LOW. -/
theorem settle_pinHigh (c : Config) {s : State} (hp : s.pending = []) (hshows : s.lastPin = some s.eff) :
    settle c { s with pending := [.uWAIT c.cCmd, .uSETHI] } =
      { s with
        level := true
        cyc := s.cyc + c.cCmd + c.cPin
        trace := if s.dir = .OUT ∧ s.level = false then s.trace ++ [(s.cyc + c.cCmd + c.cPin, .H)]
                 else s.trace } := by
  rw [settle_withPending_idle c hp, runOps, runOps, runOps, execMicro_setHi, execMicro, advance_lastPin, hshows]
  cases hd : s.dir <;> cases hl : s.level <;> simp [State.eff, hd, hl]

/-- Settles O21: the acceptance by `exec_start` and `exec_busy`, the completion by the uSETHI. -/
theorem pinHighRaisesTheLatch : Obligations.PinHighRaisesTheLatch :=
  ⟨by decide, fun _ hp => exec_start hp (.inl rfl), fun c _ _ hp hshows => settle_pinHigh c hp hshows,
    fun _ hp => exec_busy hp, fun _ => legal_eq_false_of_formZ (i := .pinHigh) (by decide) rfl⟩

/-- PIN_LOW makes an event exactly where the pin was driven HIGH. -/
theorem settle_pinLow (c : Config) {s : State} (hp : s.pending = []) (hshows : s.lastPin = some s.eff) :
    settle c { s with pending := [.uWAIT c.cCmd, .uSETLO] } =
      { s with
        level := false
        cyc := s.cyc + c.cCmd + c.cPin
        trace := if s.dir = .OUT ∧ s.level = true then s.trace ++ [(s.cyc + c.cCmd + c.cPin, .L)]
                 else s.trace } := by
  rw [settle_withPending_idle c hp, runOps, runOps, runOps, execMicro_setLo, execMicro, advance_lastPin, hshows]
  cases hd : s.dir <;> cases hl : s.level <;> simp [State.eff, hd, hl]

/-- Settles O22: the acceptance by `exec_start` and `exec_busy`, the completion by the uSETLO. -/
theorem pinLowLowersTheLatch : Obligations.PinLowLowersTheLatch :=
  ⟨by decide, fun _ hp => exec_start hp (.inl rfl), fun c _ _ hp hshows => settle_pinLow c hp hshows,
    fun _ hp => exec_busy hp, fun _ => legal_eq_false_of_formZ (i := .pinLow) (by decide) rfl⟩

theorem settle_delayUs (c : Config) (u : Micros) {s : State} (hp : s.pending = []) :
    settle c { s with pending := [.uWAIT c.cCmd, .uWAIT (c.usToCyc u.toNat)] } =
      { s with cyc := s.cyc + c.cCmd + c.usToCyc u.toNat } :=
  settle_withPending_idle c hp _

/-- Settles O23: the dispatch wait and the delay advance the time. -/
theorem delayUsSpendsItsMicroseconds : Obligations.DelayUsSpendsItsMicroseconds :=
  ⟨encode_delayUs, fun _ _ hp => exec_start hp (.inl rfl), fun c u _ hc hp => ⟨settle_delayUs c u hp, hc.usToCyc_zero⟩,
    fun _ _ hp => exec_busy hp, fun _ => legal_eq_false_of_delayUs⟩

/-! ## A pulse from the primitives (40_sequencer.md R115) -/

theorem pinHigh_raises_low {s : State} (hp : s.pending = []) (hd : s.dir = .OUT) (hl : s.level = false)
    (hlast : s.lastPin = some .L) :
    ∃ t, exec .pinHigh s = .next t ∧ t.cyc = s.cyc ∧
      settle cfg t =
        { s with
          level := true
          cyc := s.cyc + cfg.cCmd + cfg.cPin
          trace := s.trace ++ [(s.cyc + cfg.cCmd + cfg.cPin, .H)] } := by
  refine ⟨_, exec_start hp (.inl rfl), rfl, ?_⟩
  have hshows : s.lastPin = some s.eff := by rw [hlast, eff_out hd, hl]; rfl
  exact (settle_pinHigh cfg hp hshows).trans (by rw [if_pos ⟨hd, hl⟩])

theorem pinLow_lowers_high {s : State} (hp : s.pending = []) (hd : s.dir = .OUT) (hl : s.level = true)
    (hlast : s.lastPin = some .H) :
    ∃ t, exec .pinLow s = .next t ∧ t.cyc = s.cyc ∧
      (settle cfg t).trace = s.trace ++ [(s.cyc + cfg.cCmd + cfg.cPin, .L)] := by
  refine ⟨_, exec_start hp (.inl rfl), rfl, ?_⟩
  have hshows : s.lastPin = some s.eff := by rw [hlast, eff_out hd, hl]; rfl
  exact (congrArg State.trace (settle_pinLow cfg hp hshows)).trans (if_pos ⟨hd, hl⟩)

/-- Settles O52: PIN_HIGH raises the LOW pin and PIN_LOW lowers the HIGH one, each as long after its acceptance. -/
theorem pulseFromPrimitivesLastsBetweenAcceptances : Obligations.PulseFromPrimitivesLastsBetweenAcceptances := by
  intro s gap hp hd hl hlast
  obtain ⟨t, ht, htcyc, htset⟩ := pinHigh_raises_low hp hd hl hlast
  have hhigh : (advance gap (settle cfg t)).lastPin = some .H := by simp [htset, State.lastPin]
  obtain ⟨u, hu, hucyc, hutrace⟩ :=
    pinLow_lowers_high (s := advance gap (settle cfg t)) (settle_pending cfg t) (by simp [htset, hd]) (by simp [htset])
      hhigh
  have htime : (advance gap (settle cfg t)).cyc + cfg.cCmd + cfg.cPin =
      s.cyc + cfg.cCmd + cfg.cPin + (u.cyc - t.cyc) := by
    rw [hucyc, htcyc, htset]
    simp only [advance_cyc]
    omega
  refine ⟨t, u, ht, hu, s.cyc + cfg.cCmd + cfg.cPin, ?_⟩
  rw [hutrace, htime, advance_trace, htset]
  simp

end Sys2Proof.Machine
end

section
/-! PROOFS. The bit emitter of 41_bit_emitter.md: that only a reset cuts a command short, the waveform of `Bit(v)`, and
EMIT_BIT. -/

namespace Sys2Proof.Machine

/-! ## Nothing but a reset stops a command (41_bit_emitter.md R133) -/

/-- What a step that is no reset does to the pending list of a busy block. -/
theorem StepEffect.pending_of_busy {c : Config} {s t : State} (h : StepEffect c s t) (hbusy : s.pending ≠ [])
    (hr : s.resetNext = false) :
    t.pending = s.pending ∨ (s.sequencerNext = true ∧ t.pending = s.pending.tail) := by
  cases h with
  | sequencer st ins n hs => exact .inr ⟨hs, seqStep_pending c st s⟩
  | overrun | read | ignored => exact .inl rfl
  | illegal _ _ _ _ hp | noinit _ _ _ _ hp | start _ _ _ _ _ hp | idle _ _ _ _ hp | setIE _ _ _ _ hp =>
    exact absurd hp hbusy
  | reset _ hi | resetAt _ _ hi => simp [State.resetNext, hi] at hr

/-- Settles O43: of all a step can do, only the sequencer's turn and a reset write the pending list of a busy block. -/
theorem nothingButResetCutsACommandShort : Obligations.NothingButResetCutsACommandShort :=
  fun _ _ h => (step_effect h).pending_of_busy

/-! ## The waveform of a bit (41_bit_emitter.md R131, R132) -/

/-- Raising a driven pin makes an event exactly where it was LOW. -/
theorem execMicro_setHi_driven (c : Config) {s : State} (hd : s.dir = .OUT) (hshows : s.lastPin = some s.eff) :
    execMicro c .uSETHI s =
      { s with
        level := true
        cyc := s.cyc + c.cPin
        trace := s.trace ++ if s.level then [] else [(s.cyc + c.cPin, .H)] } := by
  rw [execMicro_setHi, hshows, eff_out hd, if_pos hd]
  cases s.level <;> simp

theorem execMicro_setHi_lastPin (c : Config) {s : State} (hd : s.dir = .OUT) :
    (execMicro c .uSETHI s).lastPin = some .H :=
  (setpin_shows _).trans (congrArg some (eff_out hd))

/-- Lowering a driven HIGH pin makes an event. -/
theorem execMicro_setLo_high (c : Config) {s : State} (hd : s.dir = .OUT) (hhigh : s.lastPin = some .H) :
    execMicro c .uSETLO s =
      { s with level := false, cyc := s.cyc + c.cPin, trace := s.trace ++ [(s.cyc + c.cPin, .L)] } := by
  rw [execMicro_setLo, hhigh, if_pos hd, if_neg (by decide)]

/-- `Bit(v)` in four parts: the rise, the HIGH phase, the fall and the LOW padding. -/
theorem runOps_bitOps_eq {c : Config} (hc : c.Admitted) (v : Bool) (s : State) :
    runOps c (bitOps c v) s =
      advance (nL c v) (execMicro c .uSETLO (advance (nH c v) (execMicro c .uSETHI s))) := by
  rw [bitOps, runOps_append, runOps_append, runOps_nops, hc.cNop_one, Nat.mul_one]
  rfl

/-- What `Bit(v)` makes of a driven pin: a rise where it was LOW, none where the new HIGH merges with the old one, and
the fall. -/
theorem runOps_bitOps {c : Config} (hc : c.Admitted) (v : Bool) {s : State} (hd : s.dir = .OUT)
    (hshows : s.lastPin = some s.eff) :
    runOps c (bitOps c v) s =
      { s with
        level := false
        cyc := s.cyc + c.cPin + (nH c v + c.cPin) + nL c v
        trace := s.trace ++ (if s.level then [] else [(s.cyc + c.cPin, .H)]) ++
          [(s.cyc + c.cPin + (nH c v + c.cPin), .L)] } := by
  have hhigh : (advance (nH c v) (execMicro c .uSETHI s)).lastPin = some .H := execMicro_setHi_lastPin c hd
  have hout : (advance (nH c v) (execMicro c .uSETHI s)).dir = .OUT := hd
  rw [runOps_bitOps_eq hc, execMicro_setLo_high c hout hhigh, execMicro_setHi_driven c hd hshows]
  simp only [advance, Nat.add_assoc]

/-- Settles O46: `Bit(v)` from a LOW pin, which stays LOW at its end. -/
theorem bitIsHighThenLowForItsTimes : Obligations.BitIsHighThenLowForItsTimes := by
  intro c v s hc hd hl hlast
  have hshows : s.lastPin = some s.eff := by rw [hlast, eff_out hd, hl]; rfl
  rw [runOps_bitOps hc v hd hshows, hl]
  simp

/-! ## EMIT_BIT (41_bit_emitter.md R130) -/

/-- A legal word with the opcode of EMIT_BIT has 0 above its bit. -/
theorem legal_eq_false_of_emitBit {w : Word} (hop : opField w = 0x6#4) (hne : w.extractLsb' 1 27 ≠ 0) :
    Legal w = false := by
  by_contra hl
  obtain ⟨hrsv, hform⟩ := (legal_iff_fields w).1 (Bool.eq_true_of_not_eq_false hl)
  have harg : (argField w).extractLsb' 1 23 = 0 := by simpa [hop] using hform
  have hw : encode (.emitBit _) = w := encode_eq_of_fields hrsv hop (arg_of_low1 _ harg)
  have hzero : ∀ v, (encode (.emitBit v)).extractLsb' 1 27 = 0 := by decide
  exact hne (hw ▸ hzero _)

/-- EMIT_BIT from an idle output: its dispatch wait, then `Bit(v)`. -/
theorem settle_emitBit {c : Config} (hc : c.Admitted) (v : Bool) {s : State} (hp : s.pending = []) (hd : s.dir = .OUT)
    (hshows : s.lastPin = some s.eff) :
    settle c { s with pending := .uWAIT c.cCmd :: bitOps c v } =
      { s with
        level := false
        cyc := s.cyc + c.cCmd + 2 * c.cPin + nH c v + nL c v
        trace := s.trace ++
          (if s.level then [] else [(s.cyc + c.cCmd + c.cPin, .H)]) ++
          [(s.cyc + c.cCmd + 2 * c.cPin + nH c v, .L)] } := by
  have hfall : s.cyc + c.cCmd + c.cPin + (nH c v + c.cPin) = s.cyc + c.cCmd + 2 * c.cPin + nH c v := by omega
  rw [settle_withPending_idle c hp, runOps, execMicro, runOps_bitOps hc v (s := advance c.cCmd s) hd hshows,
    advance_cyc, hfall]
  rfl

/-- Settles O25: the acceptance by `exec_start`, `exec_busy` and `exec_noinit`, the completion by the waveform of a bit. -/
theorem emitBitSendsOnePulse : Obligations.EmitBitSendsOnePulse :=
  ⟨by decide, fun _ _ hp hd => exec_start hp (.inr hd),
    fun _ v _ hc hp hd hshows => settle_emitBit hc v hp hd hshows,
    fun _ _ hp => exec_busy hp, fun _ _ hp hd => exec_noinit hp rfl hd,
    fun _ => legal_eq_false_of_emitBit⟩

end Sys2Proof.Machine
end

section
/-! PROOFS. The byte emitter of 42_byte_emitter.md: the byte loop unrolled, the waveform of the bits it sends, and
EMIT_BYTE. -/

namespace Sys2Proof.Machine

/-! ## The byte loop unrolled (42_byte_emitter.md R141, R142) -/

/-- One turn of the byte loop: its bookkeeping and `Bit(v)` (42_byte_emitter.md R141). -/
def byteTurn (c : Config) (v : Bool) : List MicroOp := .uWAIT c.cBitOvh :: bitOps c v

theorem byteLoop_eq_flatMap (c : Config) (n : Nat) (sr : Byte) :
    byteLoop c n sr = (shiftedOut n sr).flatMap (byteTurn c) := by
  induction n generalizing sr with
  | zero => rfl
  | succ n ih => rw [byteLoop, ih, shiftedOut, List.flatMap_cons]; rfl

/-- The loop shifts out the bits of a byte in the order they go onto the wire. -/
theorem shiftedOut_eight (x : Byte) : shiftedOut 8 x = byteBits x := by
  simp [shiftedOut, byteBits]

theorem byteOps_eq_flatMap (c : Config) (x : Byte) : byteOps c x = (byteBits x).flatMap (byteTurn c) := by
  rw [byteOps, byteLoop_eq_flatMap, shiftedOut_eight]

theorem byteOps_eq_byteUnrolled (c : Config) (x : Byte) : byteOps c x = byteUnrolled c x := by
  rw [byteOps_eq_flatMap, byteBits, List.flatMap_map]
  rfl

/-- After `m` turns of the loop its working value is the byte shifted left by `m`. -/
theorem byteLoop_add (c : Config) (m n : Nat) (sr : Byte) :
    byteLoop c (m + n) sr = (shiftedOut m sr).flatMap (byteTurn c) ++ byteLoop c n (sr <<< m) := by
  simp only [byteLoop_eq_flatMap, shiftedOut_add, List.flatMap_append]

theorem take_byteBits {k : Nat} (hk : k ≤ 8) (x : Byte) : (byteBits x).take k = shiftedOut k x := by
  have hsplit : byteBits x = shiftedOut k x ++ shiftedOut (8 - k) (x <<< k) := by
    rw [← shiftedOut_eight, ← shiftedOut_add, Nat.add_sub_cancel' hk]
  rw [hsplit, List.take_left' (length_shiftedOut k x)]

theorem byteOps_eq_take_append {k : Nat} (hk : k ≤ 8) (c : Config) (x : Byte) :
    byteOps c x = ((byteBits x).take k).flatMap (byteTurn c) ++ byteLoop c (8 - k) (x <<< k) := by
  rw [take_byteBits hk, ← byteLoop_add, Nat.add_sub_cancel' hk, byteOps]

theorem topBit_shiftLeft {k : Nat} (hk : k ≤ 7) (x : Byte) : (x <<< k).getLsbD 7 = x.getLsbD (7 - k) := by
  rw [BitVec.getLsbD_shiftLeft]
  simp [Nat.not_lt.2 hk]

/-- Settles O47: the loop's turns are the bits it shifts out, and `k` turns leave the byte shifted left by `k`. -/
theorem byteLoopUnrolls : Obligations.ByteLoopUnrolls := by
  intro c x
  refine ⟨byteOps_eq_byteUnrolled c x, fun k hk => ⟨?_, topBit_shiftLeft hk x, ?_⟩⟩
  · rw [BitVec.toNat_shiftLeft, Nat.shiftLeft_eq]
  · exact byteOps_eq_take_append (Nat.le_succ_of_le hk) c x

/-! ## The waveform of the bits of a byte (42_byte_emitter.md R140, 46_waveform.md R182) -/

theorem execMicro_shows (c : Config) (op : MicroOp) {s : State} (hshows : s.lastPin = some s.eff) :
    (execMicro c op s).lastPin = some (execMicro c op s).eff := by
  cases op with
  | uNOP | uWAIT => exact hshows
  | uSETOUT | uSETHI | uSETLO => exact setpin_shows _

/-- Micro-operations keep the trace's last event at the effective pin value. -/
theorem runOps_shows (c : Config) (ops : List MicroOp) {s : State} (hshows : s.lastPin = some s.eff) :
    (runOps c ops s).lastPin = some (runOps c ops s).eff := by
  induction ops generalizing s with
  | nil => exact hshows
  | cons op ops ih => exact ih (execMicro_shows c op hshows)

/-- One turn of the loop takes one bit period, and its rise is missing where the pin was HIGH. -/
theorem runOps_byteTurn {c : Config} (hc : c.Admitted) (v : Bool) {s : State} (hd : s.dir = .OUT)
    (hshows : s.lastPin = some s.eff) :
    runOps c (byteTurn c v) s =
      { s with
        level := false
        cyc := s.cyc + period c v
        trace := s.trace ++
          (if s.level then (bitEvents c (s.cyc + c.cBitOvh) v).tail else bitEvents c (s.cyc + c.cBitOvh) v) } := by
  have hperiod : s.cyc + c.cBitOvh + c.cPin + (nH c v + c.cPin) + nL c v = s.cyc + period c v := by
    rw [period]; omega
  rw [byteTurn, runOps, execMicro, runOps_bitOps hc v (s := advance c.cBitOvh s) hd hshows, advance_cyc, hperiod]
  cases hl : s.level <;> simp [hl, bitEvents, highTime, advance]

/-- From a driven pin the turns of the loop make the two events of each bit, in order, and leave the pin LOW; the first
rise is missing where the pin was HIGH. -/
theorem runOps_byteTurns {c : Config} (hc : c.Admitted) (v : Bool) (vs : List Bool) {s : State} (hd : s.dir = .OUT)
    (hshows : s.lastPin = some s.eff) :
    runOps c ((v :: vs).flatMap (byteTurn c)) s =
      { s with
        level := false
        cyc := s.cyc + periodSum c (v :: vs)
        trace := s.trace ++
          (if s.level then (bitsEvents c s.cyc (v :: vs)).tail else bitsEvents c s.cyc (v :: vs)) } := by
  induction vs generalizing v s with
  | nil => simpa [periodSum, bitsEvents] using runOps_byteTurn hc v hd hshows
  | cons w ws ih =>
    have hturn := runOps_byteTurn hc v hd hshows
    have hout : (runOps c (byteTurn c v) s).dir = .OUT := by rw [hturn]; exact hd
    rw [List.flatMap_cons, runOps_append, ih w hout (runOps_shows c _ hshows), hturn]
    cases s.level <;> simp [periodSum, bitsEvents, bitEvents, Nat.add_assoc]

theorem periodSum_cons (c : Config) (v : Bool) (vs : List Bool) :
    periodSum c (v :: vs) = period c v + periodSum c vs := rfl

/-- The periods of a list of bits, by the number of its 1 bits and of its 0 bits. -/
theorem periodSum_eq_counts (c : Config) (bits : List Bool) :
    periodSum c bits =
      bits.length * (c.cBitOvh + 2 * c.cPin) + bits.count true * (c.nH1 + c.nL1) +
        bits.count false * (c.nH0 + c.nL0) := by
  induction bits with
  | nil => simp [periodSum]
  | cons v vs ih =>
    rw [periodSum_cons, ih]
    cases v <;> simp [period, nH, nL] <;> ring

theorem count_false_byteBits (x : Byte) : (byteBits x).count false = 8 - (byteBits x).count true :=
  Nat.eq_sub_of_add_eq (List.count_not_add_count (byteBits x) true)

/-! ## EMIT_BYTE (42_byte_emitter.md R140) -/

theorem encode_emitByte (x : Byte) : encode (.emitByte x) = 0x700000#24 ++ x := by
  apply BitVec.eq_of_toNat_eq
  show (0x7#4 ++ 0#4 ++ (0#16 ++ x)).toNat = _
  simp only [BitVec.toNat_append]
  simp

/-- A legal word with the opcode of EMIT_BYTE has 0 above its byte. -/
theorem legal_eq_false_of_emitByte {w : Word} (hop : opField w = 0x7#4) (hne : w.extractLsb' 8 20 ≠ 0) :
    Legal w = false := by
  by_contra hl
  obtain ⟨hrsv, hform⟩ := (legal_iff_fields w).1 (Bool.eq_true_of_not_eq_false hl)
  have harg : (argField w).extractLsb' 8 16 = 0 := by simpa [hop] using hform
  have hw : encode (.emitByte _) = w := encode_eq_of_fields hrsv hop (arg_of_low8 _ harg)
  rw [← hw, encode_emitByte, BitVec.extractLsb'_append_eq_of_le (by decide)] at hne
  exact hne (by decide)

/-- EMIT_BYTE from an idle output: its dispatch wait, then the turns of its eight bits. -/
theorem settle_emitByte {c : Config} (hc : c.Admitted) (x : Byte) {s : State} (hp : s.pending = []) (hd : s.dir = .OUT)
    (hshows : s.lastPin = some s.eff) :
    settle c { s with pending := .uWAIT c.cCmd :: byteOps c x } =
      { s with
        level := false
        cyc := s.cyc + c.cCmd + periodSum c (byteBits x)
        trace := s.trace ++
          (let events := bitsEvents c (s.cyc + c.cCmd) (byteBits x)
           if s.level then events.tail else events) } := by
  rw [settle_withPending_idle c hp, byteOps_eq_flatMap, runOps, execMicro]
  exact runOps_byteTurns hc _ _ (s := advance c.cCmd s) hd hshows

/-- Settles O26: the acceptance by `exec_start`, `exec_busy` and `exec_noinit`, the completion by the waveform of the
eight bits, and the loop registers by their view of the empty pending list. -/
theorem emitByteSendsEightPulses : Obligations.EmitByteSendsEightPulses := by
  refine ⟨encode_emitByte, fun _ _ hp hd => exec_start hp (.inr hd), fun c x s hc hp hd hshows => ?completes,
    fun _ _ hp => exec_busy hp, fun _ _ hp hd => exec_noinit hp rfl hd, fun _ => legal_eq_false_of_emitByte⟩
  case completes =>
    intro k1 t
    have ht := settle_emitByte hc x hp hd hshows
    obtain ⟨hBC, hSR, -⟩ :=
      (loopRegistersAreAViewOfThePendingList c t 0 0 hc (Nat.zero_le 3)).2.2 (settle_pending c _)
    refine ⟨ht.trans ?_, congrArg State.cyc ht, hSR, hBC⟩
    rw [periodSum_eq_counts, count_false_byteBits, ← Nat.add_assoc, ← Nat.add_assoc]
    rfl

end Sys2Proof.Machine
end

section
/-! PROOFS. The pixel emitter of 43_pixel_emitter.md: the pixel loop unrolled, the wire order of its bits, the waveform
of its bytes, and SEND_PIXEL. -/

namespace Sys2Proof.Machine

/-! ## The pixel loop unrolled (43_pixel_emitter.md R151, R152) -/

/-- One turn of the pixel loop: its bookkeeping and `Byte(x)` (43_pixel_emitter.md R151). -/
def pixelTurn (c : Config) (x : Byte) : List MicroOp := .uWAIT c.cByteOvh :: byteOps c x

/-- The loop's bytes are the argument's channels, from its top byte down. -/
theorem pixelOps_eq_flatMap (c : Config) (g r b : Byte) :
    pixelOps c (g ++ r ++ b) = [g, r, b].flatMap (pixelTurn c) := by
  have hturns (a : Arg) : pixelOps c a =
      [a.extractLsb' 16 8, a.extractLsb' 8 8, a.extractLsb' 0 8].flatMap (pixelTurn c) := rfl
  rw [hturns, ← pixelArg, pixelArg_green, pixelArg_red, pixelArg_blue]

theorem pixelOps_eq_pixelUnrolled (c : Config) (g r b : Byte) : pixelOps c (g ++ r ++ b) = pixelUnrolled c g r b := by
  simp [pixelOps_eq_flatMap, pixelTurn, pixelUnrolled]

/-! ## The wire order of a pixel's bits (43_pixel_emitter.md R152, 20_memory.md R59) -/

theorem pixelBits_eq_byteBits (a : Arg) :
    pixelBits a = byteBits (a.extractLsb' 16 8) ++ byteBits (a.extractLsb' 8 8) ++ byteBits (a.extractLsb' 0 8) := by
  simp [pixelBits, byteBits, BitVec.getLsbD_extractLsb', List.range_succ]

/-- A pixel's bits are those of green, of red and of blue. -/
theorem pixelBits_eq_flatMap (g r b : Byte) : pixelBits (g ++ r ++ b) = [g, r, b].flatMap byteBits := by
  rw [pixelBits_eq_byteBits, ← pixelArg, pixelArg_green, pixelArg_red, pixelArg_blue]
  simp

/-- One turn of the pixel loop sends the bits of its byte. -/
theorem bitsToSend_pixelTurn {c : Config} (hc : c.Admitted) (x : Byte) (rest : List MicroOp) :
    bitsToSend c (pixelTurn c x ++ rest) = byteBits x ++ bitsToSend c rest := by
  rw [← shiftedOut_eight]
  exact bitsToSend_byteLoop hc 8 x rest

/-- The turns of the pixel loop send the bits of their bytes, in order. -/
theorem bitsToSend_pixelTurns {c : Config} (hc : c.Admitted) (xs : List Byte) :
    bitsToSend c (xs.flatMap (pixelTurn c)) = xs.flatMap byteBits := by
  induction xs with
  | nil => rfl
  | cons x xs ih =>
    rw [List.flatMap_cons, bitsToSend_pixelTurn hc, ih, List.flatMap_cons]

/-- Settles O48: the loop's turns are its three channels, whose bits are the argument's from 23 down to 0. -/
theorem pixelGoesOutGreenRedBlue : Obligations.PixelGoesOutGreenRedBlue := by
  intro c g r b
  refine ⟨pixelOps_eq_pixelUnrolled c g r b, fun hc => ?_⟩
  have hbits : bitsToSend c (pixelOps c (g ++ r ++ b)) = [g, r, b].flatMap byteBits := by
    rw [pixelOps_eq_flatMap, bitsToSend_pixelTurns hc]
  exact ⟨hbits.trans (by simp), hbits.trans (pixelBits_eq_flatMap g r b).symm⟩

/-! ## The waveform of the bytes of a pixel (43_pixel_emitter.md R150, 46_waveform.md R183) -/

/-- One turn of the loop takes its bookkeeping and the periods of its byte's bits, and its first rise is missing where
the pin was HIGH. -/
theorem runOps_pixelTurn {c : Config} (hc : c.Admitted) (x : Byte) {s : State} (hd : s.dir = .OUT)
    (hshows : s.lastPin = some s.eff) :
    runOps c (pixelTurn c x) s =
      { s with
        level := false
        cyc := s.cyc + c.cByteOvh + periodSum c (byteBits x)
        trace := s.trace ++
          (if s.level then (bitsEvents c (s.cyc + c.cByteOvh) (byteBits x)).tail
           else bitsEvents c (s.cyc + c.cByteOvh) (byteBits x)) } := by
  rw [pixelTurn, runOps, execMicro, byteOps_eq_flatMap]
  exact runOps_byteTurns hc _ _ (s := advance c.cByteOvh s) hd hshows

theorem periodSum_append (c : Config) (vs ws : List Bool) :
    periodSum c (vs ++ ws) = periodSum c vs + periodSum c ws := by
  rw [periodSum, List.map_append, List.sum_append]
  rfl

theorem bytesEvents_cons (c : Config) (t : Nat) (x : Byte) (xs : List Byte) :
    bytesEvents c t (x :: xs) =
      bitsEvents c (t + c.cByteOvh) (byteBits x) ++
        bytesEvents c (t + c.cByteOvh + periodSum c (byteBits x)) xs := rfl

theorem bitsEvents_byteBits_ne_nil (c : Config) (t : Nat) (x : Byte) : bitsEvents c t (byteBits x) ≠ [] :=
  List.cons_ne_nil _ _

/-- From a driven pin the turns of the loop make the events of each byte, in order, and leave the pin LOW; the first
rise is missing where the pin was HIGH. -/
theorem runOps_pixelTurns {c : Config} (hc : c.Admitted) (x : Byte) (xs : List Byte) {s : State} (hd : s.dir = .OUT)
    (hshows : s.lastPin = some s.eff) :
    runOps c ((x :: xs).flatMap (pixelTurn c)) s =
      { s with
        level := false
        cyc := s.cyc + (x :: xs).length * c.cByteOvh + periodSum c ((x :: xs).flatMap byteBits)
        trace := s.trace ++
          (if s.level then (bytesEvents c s.cyc (x :: xs)).tail else bytesEvents c s.cyc (x :: xs)) } := by
  induction xs generalizing x s with
  | nil => simpa [bytesEvents] using runOps_pixelTurn hc x hd hshows
  | cons y ys ih =>
    have hturn := runOps_pixelTurn hc x hd hshows
    have hout : (runOps c (pixelTurn c x) s).dir = .OUT := by rw [hturn]; exact hd
    have htime : s.cyc + c.cByteOvh + periodSum c (byteBits x) + (y :: ys).length * c.cByteOvh +
          periodSum c ((y :: ys).flatMap byteBits) =
        s.cyc + (x :: y :: ys).length * c.cByteOvh + periodSum c ((x :: y :: ys).flatMap byteBits) := by
      rw [List.flatMap_cons (x := x), periodSum_append, List.length_cons (a := x)]
      ring
    rw [List.flatMap_cons, runOps_append, ih y hout (runOps_shows c _ hshows), hturn]
    dsimp only
    rw [htime, bytesEvents_cons c s.cyc]
    cases s.level <;> simp [List.tail_append_of_ne_nil, bitsEvents_byteBits_ne_nil]

/-! ## SEND_PIXEL (43_pixel_emitter.md R150) -/

theorem encode_sendPixel (g r b : Byte) : encode (.sendPixel g r b) = 0x80#8 ++ g ++ r ++ b := by
  apply BitVec.eq_of_toNat_eq
  show (0x8#4 ++ 0#4 ++ (g ++ r ++ b)).toNat = _
  simp only [BitVec.toNat_append, Nat.shiftLeft_or_distrib, ← Nat.shiftLeft_add, Nat.or_assoc]
  simp

/-- Any argument is a pixel: of the words with the opcode of SEND_PIXEL the legal ones are those with `RSV = 0`. -/
theorem legal_eq_false_iff_of_sendPixel {w : Word} (hop : opField w = 0x8#4) :
    Legal w = false ↔ rsvField w ≠ 0 := by
  rw [← Bool.not_eq_true, legal_iff_fields]
  simp [hop]

/-- SEND_PIXEL from an idle output: its dispatch wait, then the turns of its three bytes. -/
theorem settle_sendPixel {c : Config} (hc : c.Admitted) (g r b : Byte) {s : State} (hp : s.pending = [])
    (hd : s.dir = .OUT) (hshows : s.lastPin = some s.eff) :
    settle c { s with pending := .uWAIT c.cCmd :: pixelOps c (g ++ r ++ b) } =
      { s with
        level := false
        cyc := s.cyc + c.cCmd + 3 * c.cByteOvh + periodSum c (pixelBits (g ++ r ++ b))
        trace := s.trace ++
          (let events := bytesEvents c (s.cyc + c.cCmd) [g, r, b]
           if s.level then events.tail else events) } := by
  rw [settle_withPending_idle c hp, pixelOps_eq_flatMap, pixelBits_eq_flatMap, runOps, execMicro]
  exact runOps_pixelTurns hc _ _ (s := advance c.cCmd s) hd hshows

/-- Settles O27: the acceptance by `exec_start`, `exec_busy` and `exec_noinit`, the completion by the waveform of the
three bytes. -/
theorem sendPixelSendsTwentyFourPulses : Obligations.SendPixelSendsTwentyFourPulses :=
  ⟨encode_sendPixel, fun _ _ _ _ hp hd => exec_start hp (.inr hd),
    fun _ g r b _ hc hp hd hshows => settle_sendPixel hc g r b hp hd hshows,
    fun _ _ _ _ hp => exec_busy hp, fun _ _ _ _ hp hd => exec_noinit hp rfl hd,
    fun _ hop => (legal_eq_false_iff_of_sendPixel hop).symm⟩

end Sys2Proof.Machine
end

section
/-! PROOFS. The latch of 44_latch.md: LATCH is PIN_LOW and a hold, and how long the pin has then been LOW. -/

namespace Sys2Proof.Machine

/-! ## LATCH (44_latch.md R160) -/

/-- LATCH from an idle state completes where PIN_LOW does, then holds for the latch time. -/
theorem settle_latch_eq_advance (c : Config) {s : State} (hp : s.pending = []) (n : Nat) :
    settle c { s with pending := [.uWAIT c.cCmd, .uSETLO, .uWAIT n] } =
      advance n (settle c { s with pending := [.uWAIT c.cCmd, .uSETLO] }) := by
  rw [settle_withPending_idle c hp, settle_withPending_idle c hp]
  exact runOps_append c [.uWAIT c.cCmd, .uSETLO] [.uWAIT n] s

/-- LATCH from an idle output makes an event exactly where the pin was HIGH. -/
theorem settle_latch (c : Config) {s : State} (hp : s.pending = []) (hd : s.dir = .OUT)
    (hshows : s.lastPin = some s.eff) (n : Nat) :
    settle c { s with pending := [.uWAIT c.cCmd, .uSETLO, .uWAIT n] } =
      { s with
        level := false
        cyc := s.cyc + c.cCmd + c.cPin + n
        trace := if s.level then s.trace ++ [(s.cyc + c.cCmd + c.cPin, .L)] else s.trace } := by
  rw [settle_latch_eq_advance c hp, settle_pinLow c hp hshows]
  simp only [advance, hd, true_and]

/-- Settles O28: the acceptance by `exec_start`, `exec_busy` and `exec_noinit`, the completion by PIN_LOW and the hold. -/
theorem latchHoldsThePinLow : Obligations.LatchHoldsThePinLow :=
  ⟨by decide, fun _ hp hd => exec_start hp (.inr hd), fun c _ _ hp hd hshows => settle_latch c hp hd hshows _,
    fun _ hp => exec_busy hp, fun _ hp hd => exec_noinit hp rfl hd,
    fun _ => legal_eq_false_of_formZ (i := .latch) (by decide) rfl⟩

/-! ## How long the pin has been LOW (44_latch.md R162) -/

/-- The trace's last event shows the effective pin value and is not in the future. -/
theorem State.TraceOk.lastEvent {s : State} (ok : s.TraceOk) :
    ∃ at0, s.trace.getLast? = some (at0, s.eff) ∧ at0 ≤ s.cyc := by
  obtain ⟨⟨at0, p⟩, hlast, rfl⟩ := Option.map_eq_some_iff.1 ok.shows
  exact ⟨at0, hlast, ok.past _ (List.mem_of_getLast? hlast)⟩

/-- Settles O51: the LOW began with LATCH's own fall where the pin was HIGH, and else not after its acceptance. -/
theorem latchLowLastsAtLeastTheHold : Obligations.LatchLowLastsAtLeastTheHold := by
  intro s hp hd ok
  have hset := settle_latch cfg hp hd ok.shows (nLatch cfg)
  refine ⟨_, exec_start hp (.inr hd), ?_⟩
  simp only [expand, expandLatch, hset]
  refine ⟨eff_out hd, ?_⟩
  cases hl : s.level with
  | true => exact ⟨s.cyc + cfg.cCmd + cfg.cPin, by simp⟩
  | false =>
    obtain ⟨at0, hlast, hpast⟩ := ok.lastEvent
    rw [eff_out hd, hl] at hlast
    exact ⟨at0, hlast, by omega, fun _ => by omega⟩

end Sys2Proof.Machine
end

section
/-! PROOFS. Pin initialisation of 45_init.md: INIT is PIN_OUTPUT and then a lowering of the driven pin, and a second INIT
only takes time. -/

namespace Sys2Proof.Machine

/-! ## INIT (45_init.md R170) -/

/-- Lowering a driven pin makes an event exactly where it was HIGH. -/
theorem execMicro_setLo_driven (c : Config) {s : State} (hd : s.dir = .OUT) (hshows : s.lastPin = some s.eff) :
    execMicro c .uSETLO s =
      { s with
        level := false
        cyc := s.cyc + c.cPin
        trace := s.trace ++ if s.level then [(s.cyc + c.cPin, .L)] else [] } := by
  rw [execMicro_setLo, hshows, eff_out hd, if_pos hd]
  cases s.level <;> simp

/-- INIT from an idle state lowers the pin where PIN_OUTPUT completes. -/
theorem settle_init_eq_setLo (c : Config) {s : State} (hp : s.pending = []) :
    settle c { s with pending := [.uWAIT c.cCmd, .uSETOUT, .uSETLO] } =
      execMicro c .uSETLO (settle c { s with pending := [.uWAIT c.cCmd, .uSETOUT] }) := by
  rw [settle_withPending_idle c hp, settle_withPending_idle c hp]
  exact runOps_append c [.uWAIT c.cCmd, .uSETOUT] [.uSETLO] s

/-- Completing the command in flight keeps the trace's last event at the effective pin value. -/
theorem settle_shows (c : Config) {s : State} (hshows : s.lastPin = some s.eff) :
    (settle c s).lastPin = some (settle c s).eff := runOps_shows c s.pending hshows

/-- INIT from an idle state makes an event where the pin was not driven, and one where its latch was HIGH. -/
theorem settle_init (c : Config) {s : State} (hp : s.pending = []) (hshows : s.lastPin = some s.eff) :
    settle c { s with pending := [.uWAIT c.cCmd, .uSETOUT, .uSETLO] } =
      { s with
        dir := .OUT
        level := false
        cyc := s.cyc + c.cCmd + 2 * c.cPin
        trace := s.trace ++
          (if s.dir = .OUT then [] else [(s.cyc + c.cCmd + c.cPin, if s.level then .H else .L)]) ++
          (if s.level then [(s.cyc + c.cCmd + 2 * c.cPin, .L)] else []) } := by
  have hout := congrArg State.dir (settle_pinOutput c hp hshows)
  have hfall : s.cyc + c.cCmd + c.cPin + c.cPin = s.cyc + c.cCmd + 2 * c.cPin := by omega
  rw [settle_init_eq_setLo c hp, execMicro_setLo_driven c hout (settle_shows c hshows), settle_pinOutput c hp hshows]
  dsimp only
  rw [hfall]
  split_ifs <;> simp

/-- Settles O24: the acceptance by `exec_start` and `exec_busy`, the completion by PIN_OUTPUT and the lowering, whose
events are those of the four cases of direction and level. -/
theorem initMakesAnOutputAtLow : Obligations.InitMakesAnOutputAtLow := by
  refine ⟨by decide, fun _ hp => exec_start hp (.inl rfl), fun c s _ hp hshows => ?completes, fun _ hp => exec_busy hp,
    fun _ => legal_eq_false_of_formZ (i := .init) (by decide) rfl⟩
  case completes =>
    rw [settle_init c hp hshows]
    cases s.dir <;> cases s.level <;> simp

/-! ## A second INIT (45_init.md R171) -/

/-- INIT from an idle output at LOW only takes time. -/
theorem settle_init_low (c : Config) {s : State} (hp : s.pending = []) (hd : s.dir = .OUT) (hl : s.level = false)
    (hshows : s.lastPin = some s.eff) :
    settle c { s with pending := [.uWAIT c.cCmd, .uSETOUT, .uSETLO] } =
      { s with cyc := s.cyc + c.cCmd + 2 * c.cPin } := by
  rw [settle_init c hp hshows]
  simp [hd, hl]

/-- Settles O50: the first INIT leaves an idle output at LOW, from where the second only takes time. -/
theorem initIsIdempotentOnThePin : Obligations.InitIsIdempotentOnThePin := by
  intro s hp hshows
  have hset := settle_init cfg hp hshows
  have hdir := congrArg State.dir hset
  have hlevel := congrArg State.level hset
  exact ⟨_, _, exec_start hp (.inl rfl), exec_start (settle_pending cfg _) (.inl rfl), hdir, hlevel,
    settle_init_low cfg (settle_pending cfg _) hdir hlevel (settle_shows cfg hshows)⟩

end Sys2Proof.Machine
end

section
/-! PROOFS. The reference receiver of 46_waveform.md: which windows it refuses, how it reads two pulses, and how the bits
of a frame group into pixels. -/

namespace Sys2Proof.Machine

/-! ## Which windows are refused (46_waveform.md R190) -/

theorem mem_windowEvents {trace : List (Nat × Pin)} {t0 tEnd : Nat} {e : Nat × Pin} :
    e ∈ windowEvents trace t0 tEnd ↔ e ∈ trace ∧ t0 ≤ e.1 ∧ e.1 ≤ tEnd := by
  simp [windowEvents]

theorem decodable_iff {trace : List (Nat × Pin)} {t0 tEnd : Nat} :
    decodable trace t0 tEnd = true ↔
      levelAt trace t0 = some .L ∧ ∀ e ∈ windowEvents trace t0 tEnd, e.2 ≠ .Z := by
  simp [decodable]

theorem decodeTrace_of_decodable (c : Config) (band : Nat → Bool) {trace : List (Nat × Pin)} {t0 tEnd : Nat}
    (h : decodable trace t0 tEnd = true) :
    decodeTrace c band trace t0 tEnd =
      some (framesFrom c band (lowEndOf (windowEvents trace t0 tEnd) tEnd) 0 []
        (pulses (windowEvents trace t0 tEnd))) :=
  if_pos h

theorem decodeTrace_eq_none_iff {c : Config} {band : Nat → Bool} {trace : List (Nat × Pin)} {t0 tEnd : Nat} :
    decodeTrace c band trace t0 tEnd = none ↔ ¬ decodable trace t0 tEnd = true := by
  rw [decodeTrace, ite_eq_right_iff]
  exact forall_congr' fun _ => iff_false_intro (Option.some_ne_none _)

/-- Settles O56: decoding is refused exactly where `decodable` fails, and that at its level or at an event Z. -/
theorem receiverRefusesAnUndrivenWindow : Obligations.ReceiverRefusesAnUndrivenWindow := by
  intro c band trace t0 tEnd
  rw [decodeTrace_eq_none_iff, decodable_iff, not_and_or]
  refine or_congr Iff.rfl ⟨fun h => ?_, fun ⟨t, hmem, hlo, hhi⟩ h => ?_⟩
  · obtain ⟨⟨t, p⟩, he, hz⟩ : ∃ e ∈ windowEvents trace t0 tEnd, e.2 = .Z := by simpa using h
    obtain ⟨hmem, hlo, hhi⟩ := mem_windowEvents.1 he
    exact ⟨t, by rwa [← show p = .Z from hz], hlo, hhi⟩
  · exact h (t, .Z) (mem_windowEvents.2 ⟨hmem, hlo, hhi⟩) rfl

/-! ## Two pulses (46_waveform.md R191 to R193) -/

/-- A LOW ends the frame at `T_RESET_CYC` or more, and in the undecided band where the reading says so. -/
theorem gapEndsFrame_iff {c : Config} {band : Bool} {gap : Nat} :
    gapEndsFrame c band gap = true ↔ c.tResetCyc ≤ gap ∨ (c.tIdleMax < gap ∧ band = true) := by
  unfold gapEndsFrame
  split_ifs with hreset hidle
  · simp [hreset]
  · simp [hreset, Nat.not_lt.2 hidle]
  · simp [hreset, Nat.not_le.1 hidle]

theorem framesFrom_pair (c : Config) (band : Nat → Bool) (lowEnd k : Nat) (p q : Pulse) :
    framesFrom c band lowEnd k [] [p, q] =
      if gapEndsFrame c (band k) (q.rise - p.fall) then
        [⟨[bitOf c p], true⟩, ⟨[bitOf c q], decide (q.fall + c.tResetCyc ≤ lowEnd)⟩]
      else [⟨[bitOf c p, bitOf c q], decide (q.fall + c.tResetCyc ≤ lowEnd)⟩] := rfl

/-- Settles O55: the window holds the two pulses, the LOW between them is judged by `gapEndsFrame_iff`, and the LOW after
the second lasts to the window's end. -/
theorem receiverReadsTwoPulses : Obligations.ReceiverReadsTwoPulses := by
  intro c band t0 r1 f1 r2 f2 tEnd _ h0 hr1 hf1 hr2 hf2 hend b1 b2 latched
  have hlevel : levelAt [(0, .Z), (t0, .L), (r1, .H), (f1, .L), (r2, .H), (f2, .L)] t0 = some .L := by
    simp [levelAt, show t0 < f1 by omega, show t0 < r2 by omega, show t0 < f2 by omega, hr1]
  have hwindow : windowEvents [(0, .Z), (t0, .L), (r1, .H), (f1, .L), (r2, .H), (f2, .L)] t0 tEnd =
      [(t0, .L), (r1, .H), (f1, .L), (r2, .H), (f2, .L)] := by
    have hin : ∀ t ∈ [t0, r1, f1, r2, f2], t0 ≤ t ∧ t ≤ tEnd := by simp; omega
    simp only [List.forall_mem_cons] at hin
    simp [windowEvents, h0.ne', hin]
  have hlatched : latched = decide (f2 + c.tResetCyc ≤ tEnd) := decide_eq_decide.2 (by omega)
  rw [decodeTrace_of_decodable c band (decodable_iff.2 ⟨hlevel, by simp [hwindow]⟩), hwindow, hlatched]
  show some (framesFrom c band tEnd 0 [] [⟨r1, f1⟩, ⟨r2, f2⟩]) = _
  rw [framesFrom_pair, apply_ite some]
  exact if_congr gapEndsFrame_iff rfl rfl

/-! ## Pixels (46_waveform.md R194, R195) -/

/-- The bits of a pixel in the order they go onto the wire (43_pixel_emitter.md R152). -/
def Pixel.bits (p : Pixel) : List Bool := byteBits p.g ++ byteBits p.r ++ byteBits p.b

@[simp] theorem length_byteBits (x : Byte) : (byteBits x).length = 8 := rfl

theorem byteOfBits_byteBits (x : Byte) : byteOfBits (byteBits x) = x := by
  rw [← shiftedOut_eight, byteOfBits_shiftedOut]

theorem length_flatMap_pixelBits (px : List Pixel) : (px.flatMap Pixel.bits).length = 24 * px.length := by
  induction px with
  | nil => rfl
  | cons p px ih => simp [ih, Pixel.bits]; omega

theorem take_byteBits_append (x : Byte) (bits : List Bool) : (byteBits x ++ bits).take 8 = byteBits x :=
  List.take_left' rfl

theorem drop_byteBits_append (k : Nat) (x : Byte) (bits : List Bool) :
    (byteBits x ++ bits).drop (k + 8) = bits.drop k := by
  rw [Nat.add_comm, ← List.drop_drop, List.drop_left' (length_byteBits x)]

/-- Grouping takes the bits of one pixel off the front. -/
theorem pixelsAndRest_cons (n : Nat) (p : Pixel) (bits : List Bool) :
    pixelsAndRest (n + 1) (p.bits ++ bits) = (p :: (pixelsAndRest n bits).1, (pixelsAndRest n bits).2) := by
  simp only [pixelsAndRest, Pixel.bits, List.append_assoc, take_byteBits_append, drop_byteBits_append, List.drop_zero,
    byteOfBits_byteBits]

theorem pixelsAndRest_flatMap (px : List Pixel) (rest : List Bool) :
    pixelsAndRest px.length (px.flatMap Pixel.bits ++ rest) = (px, rest) := by
  induction px with
  | nil => rfl
  | cons p px ih => rw [List.flatMap_cons, List.append_assoc, List.length_cons, pixelsAndRest_cons, ih]

/-- A frame of whole pixels and fewer than 24 further bits is read as those pixels and that remainder. -/
theorem Frame.pixels_flatMap (px : List Pixel) {rest : List Bool} (hrest : rest.length < 24) (latched : Bool) :
    (⟨px.flatMap Pixel.bits ++ rest, latched⟩ : Frame).pixels = (px, rest) := by
  have hcount : (px.flatMap Pixel.bits ++ rest).length / 24 = px.length := by
    rw [List.length_append, length_flatMap_pixelBits]
    omega
  rw [Frame.pixels, hcount, pixelsAndRest_flatMap]

/-- Settles O57: the grouping by `Frame.pixels_flatMap`, of which the first pixel is applied. -/
theorem frameBitsGroupIntoPixels : Obligations.FrameBitsGroupIntoPixels := by
  intro px rest latched hrest f
  have hpixels : f.pixels = (px, rest) := Frame.pixels_flatMap px hrest latched
  exact ⟨hpixels, by rw [Frame.applied, hpixels]⟩

end Sys2Proof.Machine
end

section
/-! PROOFS. The waveform of 46_waveform.md beyond one command: the LOW between two emission commands, and a stall before
the falling edge. -/

namespace Sys2Proof.Machine

/-! ## The end and the start of an emission command -/

theorem byteOps_endsWith_bit (c : Config) (x : Byte) : ∃ ops, byteOps c x = ops ++ bitOps c (x.getLsbD 0) := by
  refine ⟨[7, 6, 5, 4, 3, 2, 1].flatMap (fun i => [.uWAIT c.cBitOvh] ++ bitOps c (x.getLsbD i)) ++ [.uWAIT c.cBitOvh], ?_⟩
  rw [byteOps_eq_byteUnrolled]
  simp [byteUnrolled]

/-- The micro-program of an emission command ends with the `Bit(v)` of its last bit. -/
theorem expand_endsWith_bit (c : Config) {j : Instr} {v : Bool} (h : lastBit j = some v) :
    ∃ ops, expand c j = ops ++ bitOps c v := by
  cases j with
  | nop | pinOutput | pinHigh | pinLow | delayUs | init | latch => cases h
  | emitBit w => cases h; exact ⟨[], rfl⟩
  | emitByte x => cases h; exact byteOps_endsWith_bit c x
  | sendPixel g r b =>
    cases h
    obtain ⟨ops, hops⟩ := byteOps_endsWith_bit c b
    refine ⟨pixelTurn c g ++ pixelTurn c r ++ .uWAIT c.cByteOvh :: ops, ?_⟩
    have hturns : expand c (.sendPixel g r b) = [g, r, b].flatMap (pixelTurn c) := pixelOps_eq_flatMap c g r b
    have hblue : pixelTurn c b = .uWAIT c.cByteOvh :: (ops ++ bitOps c (b.getLsbD 0)) := by rw [← hops, pixelTurn]
    simp [hturns, hblue]

/-- The micro-program of an emission command starts with waits of `X` cycles and the first rise. -/
theorem expand_startsWith_leadIn {c : Config} {i : Instr} {x : Nat} (h : leadIn c i = some x) :
    ∃ waits ops, expand c i = waits ++ .uSETHI :: ops ∧ ∀ s, runOps c waits s = advance x s := by
  cases i with
  | nop | pinOutput | pinHigh | pinLow | delayUs | init | latch => cases h
  | emitBit v => cases h; exact ⟨[], _, rfl, fun _ => rfl⟩
  | emitByte y => cases h; exact ⟨[.uWAIT c.cBitOvh], _, rfl, fun _ => rfl⟩
  | sendPixel g r b =>
    cases h
    exact ⟨[.uWAIT c.cByteOvh, .uWAIT c.cBitOvh], _, rfl, fun s => advance_advance _ _ s⟩

theorem setOut_notMem_of_lastBit (c : Config) {j : Instr} {v : Bool} (h : lastBit j = some v) :
    MicroOp.uSETOUT ∉ expand c j := by
  rw [setOut_mem_expand]
  rintro (rfl | rfl) <;> cases h

/-- An emission command on an idle output leaves it LOW, since its last falling edge for the padding of its last bit. -/
theorem emission_leaves_low {j : Instr} {v : Bool} (hj : lastBit j = some v) {s : State} (hp : s.pending = [])
    (hd : s.dir = .OUT) (hshows : s.lastPin = some s.eff) :
    ∃ t, exec j s = .next t ∧ (settle cfg t).dir = .OUT ∧ (settle cfg t).level = false ∧
      ∃ fall, (settle cfg t).trace.getLast? = some (fall, .L) ∧ (settle cfg t).cyc = fall + nL cfg v := by
  refine ⟨_, exec_start hp (.inr hd), ?_⟩
  obtain ⟨ops, hops⟩ := expand_endsWith_bit cfg hj
  have hout : MicroOp.uSETOUT ∉ .uWAIT cfg.cCmd :: ops := fun hmem =>
    setOut_notMem_of_lastBit cfg hj (hops ▸ List.mem_append_left _ ((List.mem_cons.1 hmem).resolve_left nofun))
  have hdir : (runOps cfg (.uWAIT cfg.cCmd :: ops) s).dir = .OUT := (runOps_dir hout s).trans hd
  rw [settle_withPending_idle cfg hp, hops, ← List.cons_append, runOps_append,
    runOps_bitOps cfg_admitted v hdir (runOps_shows cfg _ hshows)]
  exact ⟨hdir, rfl, _, List.getLast?_concat, rfl⟩

/-- An emission command raises the LOW pin after its dispatch wait, its lead-in and one pin operation. -/
theorem emission_raises_low {i : Instr} {x : Nat} (hi : leadIn cfg i = some x) {s : State} (hp : s.pending = [])
    (hd : s.dir = .OUT) (hl : s.level = false) (hlast : s.lastPin = some .L) :
    ∃ u, exec i s = .next u ∧
      ∃ more, (settle cfg u).trace = s.trace ++ (s.cyc + cfg.cCmd + x + cfg.cPin, .H) :: more := by
  refine ⟨_, exec_start hp (.inr hd), ?_⟩
  obtain ⟨waits, ops, hops, hwaits⟩ := expand_startsWith_leadIn hi
  have hshows : s.lastPin = some s.eff := by rw [hlast, eff_out hd, hl]; rfl
  have hrise := execMicro_setHi_driven cfg (s := advance x (advance cfg.cCmd s)) hd hshows
  obtain ⟨more, hmore⟩ := runOps_trace_prefix cfg ops (execMicro cfg .uSETHI (advance x (advance cfg.cCmd s)))
  refine ⟨more, ?_⟩
  rw [settle_withPending_idle cfg hp, hops, runOps, runOps_append, hwaits]
  refine hmore.symm.trans ?_
  rw [hrise]
  simp [hl]

/-! ## The LOW between two commands (46_waveform.md R184) -/

/-- Settles O53: the first command leaves the pin LOW for `N_L(v)` cycles, the host waits, and the second raises it after
its dispatch wait and lead-in. -/
theorem lowBetweenTwoCommands : Obligations.LowBetweenTwoCommands := by
  intro j i v x gap s hp hd ok hj hi
  obtain ⟨t, ht, hdir, hlevel, fall, hfall, hcyc⟩ := emission_leaves_low hj hp hd ok.shows
  have hlow : (advance gap (settle cfg t)).lastPin = some .L := by simp [State.lastPin, hfall]
  obtain ⟨u, hu, more, hmore⟩ :=
    emission_raises_low hi (s := advance gap (settle cfg t)) (settle_pending cfg t) hdir hlevel hlow
  refine ⟨t, u, ht, hu, fall, more, hfall, ?_⟩
  rw [hmore, advance_trace, advance_cyc, hcyc, lowBetween]
  simp only [Nat.add_assoc]

/-! ## A stall inside a HIGH phase (46_waveform.md R187) -/

/-- Settles O54: the turn of the sequencer takes the stall and then lowers the pin, and no micro-operation writes a fault
bit. -/
theorem stallLengthensThePulseUnreported : Obligations.StallLengthensThePulseUnreported := by
  intro s st ops rest hi ho hie hd hhigh
  refine ⟨_, step_seq hi ho (.inr hie), ?_⟩
  rw [execMicro_setLo_high cfg (s := advance st s) hd hhigh]
  exact ⟨rfl, rfl, rfl, rfl⟩

end Sys2Proof.Machine
end

section
/-! PROOFS. Trains of pulses, as the bits of one frame make them, and how the reference receiver of 46_waveform.md reads a
train: as one latched frame of those bits. -/

namespace Sys2Proof.Machine

/-! ## Trains of pulses -/

/-- The events are the pulses of the bits, the first rising at `rise`, each HIGH as long as its bit says and each LOW
inside the train one that never ends a frame (46_waveform.md R180, R192). `done` is when the padding after the last
falling edge ends. -/
inductive PulseTrain (c : Config) : (rise done : Nat) → List Bool → List (Nat × Pin) → Prop where
  | last {rise fall done : Nat} (v : Bool) (hfall : fall = rise + highTime c v) (hdone : done = fall + nL c v) :
      PulseTrain c rise done [v] [(rise, .H), (fall, .L)]
  | cons {rise fall next done : Nat} {vs : List Bool} {events : List (Nat × Pin)} (v : Bool)
      (hfall : fall = rise + highTime c v) (hlow : fall ≤ next) (hidle : next ≤ fall + c.tIdleMax)
      (train : PulseTrain c next done vs events) :
      PulseTrain c rise done (v :: vs) ((rise, .H) :: (fall, .L) :: events)

theorem nL_le_max (c : Config) (v : Bool) : nL c v ≤ max c.nL0 c.nL1 := by
  cases v with
  | false => exact Nat.le_max_left _ _
  | true => exact Nat.le_max_right _ _

variable {c : Config} {rise done next done' : Nat} {vs ws : List Bool} {events events' : List (Nat × Pin)}

/-- Two trains are one when the LOW between them is short enough whatever the last bit of the first. -/
theorem PulseTrain.append (train : PulseTrain c rise done vs events) (train' : PulseTrain c next done' ws events')
    (hlow : done ≤ next) (hidle : max c.nL0 c.nL1 + next ≤ done + c.tIdleMax) :
    PulseTrain c rise done' (vs ++ ws) (events ++ events') := by
  induction train with
  | last v hfall hdone =>
    have hpad := nL_le_max c v
    exact .cons v hfall (by omega) (by omega) train'
  | cons v hfall hlow₁ hidle₁ _ ih => exact .cons v hfall hlow₁ hidle₁ (ih hlow hidle)

theorem PulseTrain.rise_le_done (train : PulseTrain c rise done vs events) : rise ≤ done := by
  induction train with
  | last v hfall hdone => omega
  | cons v hfall hlow _ _ ih => omega

theorem PulseTrain.mem_bounds (train : PulseTrain c rise done vs events) : ∀ e ∈ events, rise ≤ e.1 ∧ e.1 ≤ done := by
  induction train with
  | last v hfall hdone => simp; omega
  | cons v hfall hlow _ train ih =>
    have hdone := train.rise_le_done
    simp only [List.forall_mem_cons]
    exact ⟨by omega, by omega, fun e he => by have := ih e he; omega⟩

theorem PulseTrain.mem_driven (train : PulseTrain c rise done vs events) : ∀ e ∈ events, e.2 ≠ .Z := by
  induction train with
  | last => simp
  | cons _ _ _ _ _ ih => simpa using ih

theorem PulseTrain.getLast?_eq (train : PulseTrain c rise done vs events) : ∃ fall, events.getLast? = some (fall, .L) := by
  induction train with
  | last => exact ⟨_, rfl⟩
  | cons _ _ _ _ _ ih =>
    obtain ⟨fall, hlast⟩ := ih
    exact ⟨fall, by simp [List.getLast?_cons, hlast]⟩

theorem PulseTrain.exists_pulses_eq_cons (train : PulseTrain c rise done vs events) :
    ∃ fall rest, pulses events = ⟨rise, fall⟩ :: rest := by
  cases train with
  | last => exact ⟨_, _, rfl⟩
  | cons => exact ⟨_, _, rfl⟩

/-! ## What the receiver makes of a train (46_waveform.md R191, R192) -/

/-- The sample instant tells the two HIGH times of a compliant configuration apart (CAL6). -/
theorem bitOf_pulse (hcal : Compliant c) (rise : Nat) (v : Bool) : bitOf c ⟨rise, rise + highTime c v⟩ = v := by
  have hzero := hcal.cal6_zero
  have hone := hcal.cal6_one
  cases v <;> simp [bitOf] <;> omega

theorem gapEndsFrame_of_le (band : Bool) {gap : Nat} (hc : c.Admitted) (h : gap ≤ c.tIdleMax) :
    gapEndsFrame c band gap = false := by
  have hidle := hc.tIdleMax_lt
  rw [← Bool.not_eq_true, gapEndsFrame_iff]
  omega

/-- A train is one frame of its bits, latched where the LOW after it lasts for `T_RESET_CYC`. -/
theorem PulseTrain.framesFrom_eq (hc : c.Admitted) (hcal : Compliant c) (train : PulseTrain c rise done vs events)
    (band : Nat → Bool) {lowEnd : Nat} (hlatch : done + c.tResetCyc ≤ lowEnd) (k : Nat) (bits : List Bool) :
    framesFrom c band lowEnd k bits (pulses events) = [⟨bits ++ vs, true⟩] := by
  induction train generalizing k bits with
  | last v hfall hdone =>
    subst hfall
    simp only [pulses, framesFrom, and_self, if_true, bitOf_pulse hcal]
    rw [decide_eq_true (by omega)]
  | cons v hfall hlow hidle train ih =>
    subst hfall
    obtain ⟨fall, rest, hrest⟩ := train.exists_pulses_eq_cons
    rw [hrest] at ih
    simp only [pulses, and_self, if_true, hrest, framesFrom, bitOf_pulse hcal]
    rw [gapEndsFrame_of_le _ hc (by omega), if_neg Bool.false_ne_true, ih hlatch]
    simp

/-- LOW events before a train add no pulse. -/
theorem pulses_append_of_low {lows : List (Nat × Pin)} (h : ∀ e ∈ lows, e.2 = .L) (events : List (Nat × Pin)) :
    pulses (lows ++ events) = pulses events := by
  induction lows with
  | nil => rfl
  | cons e lows ih =>
    obtain ⟨he, hlows⟩ := List.forall_mem_cons.1 h
    rw [List.cons_append, ← ih hlows]
    cases lows ++ events with
    | nil => rfl
    | cons f rest => simp [pulses, he]

/-- The receiver reads a train on a LOW line as one latched frame, whatever its reading of the undecided band. -/
theorem PulseTrain.decodeTrace_eq (hc : c.Admitted) (hcal : Compliant c) (train : PulseTrain c rise done vs events)
    {trace : List (Nat × Pin)} {t0 tEnd : Nat} (hpast : ∀ e ∈ trace, e.1 ≤ t0)
    (hlow : trace.getLast?.map Prod.snd = some .L) (hlowNow : ∀ e ∈ trace, t0 ≤ e.1 → e.2 = .L) (hrise : t0 < rise)
    (hlatch : done + c.tResetCyc ≤ tEnd) (band : Nat → Bool) :
    decodeTrace c band (trace ++ events) t0 tEnd = some [⟨vs, true⟩] := by
  have hbounds := train.mem_bounds
  have hlevel : levelAt (trace ++ events) t0 = some .L := by
    have htrace : trace.filter (fun e => decide (e.1 ≤ t0)) = trace := List.filter_eq_self.2 (by simpa using hpast)
    have hevents : events.filter (fun e => decide (e.1 ≤ t0)) = [] :=
      List.filter_eq_nil_iff.2 fun e he => by have := hbounds e he; simp; omega
    rw [levelAt, List.filter_append, htrace, hevents, List.append_nil, hlow]
  obtain ⟨lows, hwindow, hlows⟩ :
      ∃ lows, windowEvents (trace ++ events) t0 tEnd = lows ++ events ∧ ∀ e ∈ lows, e.2 = .L := by
    refine ⟨windowEvents trace t0 tEnd, ?_, fun e he => ?_⟩
    · have hevents : windowEvents events t0 tEnd = events :=
        List.filter_eq_self.2 fun e he => by have := hbounds e he; simp; omega
      rw [windowEvents, List.filter_append, ← windowEvents, ← windowEvents, hevents]
    · obtain ⟨hmem, hlo, -⟩ := mem_windowEvents.1 he
      exact hlowNow e hmem hlo
  have hdecodable : decodable (trace ++ events) t0 tEnd = true := by
    rw [decodable_iff, hwindow, List.forall_mem_append]
    exact ⟨hlevel, fun e he => by simp [hlows e he], train.mem_driven⟩
  have hend : lowEndOf (lows ++ events) tEnd = tEnd := by
    obtain ⟨fall, hlast⟩ := train.getLast?_eq
    simp [lowEndOf, List.getLast?_append, hlast]
  rw [decodeTrace_of_decodable c band hdecodable, hwindow, pulses_append_of_low hlows, hend,
    train.framesFrom_eq hc hcal band hlatch]
  rfl

end Sys2Proof.Machine
end

section
/-! PROOFS. The end-to-end property of 46_waveform.md R196: the waveform of a frame is one train of pulses, the machine's
steps make it, and the receiver reads it. -/

namespace Sys2Proof.Machine

/-! ## The waveform of a frame -/

/-- The channels of a pixel's argument, in wire order (20_memory.md R59). -/
def argChannels (a : Arg) : List Byte := [a.extractLsb' 16 8, a.extractLsb' 8 8, a.extractLsb' 0 8]

/-- When a SEND_PIXEL of the gap and the argument `p` completes, the host's gap starting at `t` (70_reset_and_hazards.md
R259). -/
def pixelDone (c : Config) (t : Nat) (p : Nat × Arg) : Nat :=
  t + p.1 + c.cCmd + 3 * c.cByteOvh + periodSum c (pixelBits p.2)

/-- The events of a frame's pixels, the first gap starting at `t` (43_pixel_emitter.md R150). -/
def frameEvents (c : Config) : (t : Nat) → List (Nat × Arg) → List (Nat × Pin)
  | _, [] => []
  | t, p :: px => bytesEvents c (t + p.1 + c.cCmd) (argChannels p.2) ++ frameEvents c (pixelDone c t p) px

theorem pixelBits_eq_argChannels (a : Arg) : pixelBits a = (argChannels a).flatMap byteBits := by
  simp [pixelBits_eq_byteBits, argChannels]

theorem frameBits_cons (p : Nat × Arg) (px : List (Nat × Arg)) :
    frameBits (p :: px) = pixelBits p.2 ++ frameBits px :=
  List.flatMap_cons

/-- CAL7, for the bit whose LOW padding is the longer one. -/
theorem Compliant.max_low {c : Config} (hcal : Compliant c) :
    max c.nL0 c.nL1 + c.cBitOvh + c.cPin + c.cByteOvh ≤ c.tIdleMax := by
  have hzero := hcal.cal7 false
  have hone := hcal.cal7 true
  simp only [lowTime, nL, if_true, if_false, Bool.false_eq_true] at hzero hone
  omega

/-- The bits of a byte are a train (46_waveform.md R181, R182). -/
theorem bitsEvents_train {c : Config} (hcal : Compliant c) (t : Nat) (v : Bool) (vs : List Bool) :
    PulseTrain c (t + c.cBitOvh + c.cPin) (t + periodSum c (v :: vs)) (v :: vs) (bitsEvents c t (v :: vs)) := by
  induction vs generalizing t v with
  | nil => exact .last v rfl (by simp [periodSum, period, highTime]; omega)
  | cons w ws ih =>
    have hlow := hcal.cal7 v
    have hnext : t + period c v + c.cBitOvh + c.cPin = t + c.cBitOvh + c.cPin + highTime c v + lowTime c v := by
      rw [period, highTime, lowTime]; omega
    rw [periodSum_cons, ← Nat.add_assoc]
    exact .cons v rfl (by omega) (by omega) (ih (t + period c v) w)

theorem byte_train {c : Config} (hcal : Compliant c) (t : Nat) (x : Byte) :
    PulseTrain c (t + c.cBitOvh + c.cPin) (t + periodSum c (byteBits x)) (byteBits x) (bitsEvents c t (byteBits x)) := by
  obtain ⟨v, vs, hbits⟩ : ∃ v vs, byteBits x = v :: vs := ⟨_, _, rfl⟩
  rw [hbits]
  exact bitsEvents_train hcal t v vs

/-- The bytes of a pixel are a train (46_waveform.md R183). -/
theorem bytesEvents_train {c : Config} (hcal : Compliant c) (t : Nat) (x : Byte) (xs : List Byte) :
    PulseTrain c (t + c.cByteOvh + c.cBitOvh + c.cPin)
      (t + (x :: xs).length * c.cByteOvh + periodSum c ((x :: xs).flatMap byteBits))
      ((x :: xs).flatMap byteBits) (bytesEvents c t (x :: xs)) := by
  induction xs generalizing t x with
  | nil => simpa [bytesEvents] using byte_train hcal (t + c.cByteOvh) x
  | cons y ys ih =>
    have hmax := hcal.max_low
    have htime : t + (x :: y :: ys).length * c.cByteOvh + periodSum c ((x :: y :: ys).flatMap byteBits) =
        t + c.cByteOvh + periodSum c (byteBits x) + (y :: ys).length * c.cByteOvh +
          periodSum c ((y :: ys).flatMap byteBits) := by
      rw [List.flatMap_cons (x := x), periodSum_append, List.length_cons (a := x)]
      ring
    rw [bytesEvents_cons, htime, List.flatMap_cons]
    exact (byte_train hcal (t + c.cByteOvh) x).append (ih _ y) (by omega) (by omega)

/-- A pixel is a train, from its first rise to its completion. -/
theorem pixel_train {c : Config} (hcal : Compliant c) (t : Nat) (p : Nat × Arg) :
    PulseTrain c (t + p.1 + c.cCmd + c.cByteOvh + c.cBitOvh + c.cPin) (pixelDone c t p) (pixelBits p.2)
      (bytesEvents c (t + p.1 + c.cCmd) (argChannels p.2)) := by
  rw [pixelDone, pixelBits_eq_argChannels]
  exact bytesEvents_train hcal (t + p.1 + c.cCmd) (p.2.extractLsb' 16 8) [p.2.extractLsb' 8 8, p.2.extractLsb' 0 8]

/-- The pixels of a frame are one train: the gap bound keeps the LOW between two commands short (46_waveform.md R184,
R196). -/
theorem frameEvents_train {c : Config} (hcal : Compliant c) (t : Nat) (first : Nat × Arg) (others : List (Nat × Arg))
    (hgaps : ∀ p ∈ others, gapAllowed c p.1) :
    PulseTrain c (t + first.1 + c.cCmd + c.cByteOvh + c.cBitOvh + c.cPin) ((first :: others).foldl (pixelDone c) t)
      (frameBits (first :: others)) (frameEvents c t (first :: others)) := by
  induction others generalizing t first with
  | nil => simpa [frameBits, frameEvents] using pixel_train hcal t first
  | cons p px ih =>
    obtain ⟨hgap, hgaps⟩ := List.forall_mem_cons.1 hgaps
    rw [gapAllowed] at hgap
    rw [frameBits_cons, frameEvents, List.foldl_cons]
    exact (pixel_train hcal t first).append (ih (pixelDone c t first) p hgaps) (by omega) (by omega)

/-! ## The machine's steps through a frame -/

/-- Between the commands of a frame: not busy, an output at LOW that the trace shows, interrupts disabled. -/
structure State.LineLow (s : State) : Prop where
  idle : s.pending = []
  output : s.dir = .OUT
  low : s.level = false
  noInterrupts : s.ie = false
  shows : s.lastPin = some s.eff

theorem runEnds_of_pending {s : State} (h : s.pending ≠ []) : s.runEnds = false := by
  simp [State.runEnds, busy_eq_true.2 h]

theorem runEnds_of_host {s : State} {m : Move} {rest : List Move} (hi : s.inputs = m :: rest) (hm : m.isHost = true) :
    s.runEnds = false := by
  simp [State.runEnds, State.hostDone, hi, hm]

/-- A run goes through the command in flight to the state in which it completes. -/
theorem runEnd_settle (c : Config) {s : State} (hu : s.undisturbed = true) (hie : s.ie = false) {k : Nat}
    (hk : s.pending.length = k) (n : Nat) : runEnd c (n + k) s = runEnd c n (settle c s) := by
  induction k generalizing s with
  | zero => rw [settle_idle c (List.eq_nil_of_length_eq_zero hk), Nat.add_zero]
  | succ k ih =>
    have hp : s.pending ≠ [] := List.ne_nil_of_length_eq_add_one hk
    rw [← Nat.add_assoc, runEnd_next _ (runEnds_of_pending hp) (stepWith_undisturbed hp hu hie), ← settle_seqStep]
    exact ih ((undisturbed_seqStep c 0 s).trans hu) ((seqStep_ie c 0 s).trans hie) (by simp [hk])

theorem accept_start {c : Config} {s : State} {w : Word} {i : Instr} (hw : decode w = .ok i) (hp : s.pending = [])
    (hd : s.dir = .OUT) :
    accept c (execWith c) w s = .next { s with pending := .uWAIT c.cCmd :: expand c i } := by
  simp only [accept, busy_eq_false.2 hp, Bool.false_eq_true, if_false, hw, execWith, acceptCommand_start hp (.inr hd)]

/-- Where the command `i` completes that the host issues after `gap` cycles, with the moves `rest` left to make. -/
def commandDone (c : Config) (gap : Nat) (i : Instr) (rest : List Move) (s : State) : State :=
  settle c { s with cyc := s.cyc + gap, inputs := rest, pending := .uWAIT c.cCmd :: expand c i }

/-- A run goes through a gap and the command issued after it. -/
theorem runEnd_idle_issue (c : Config) {s : State} (hs : s.LineLow) {gap : Nat} {w : Word} {i : Instr}
    {rest : List Move} (hi : s.inputs = .idle gap :: .issue w :: rest) (hw : decode w = .ok i)
    (hu : ({ s with inputs := rest } : State).undisturbed = true) :
    ∃ k, ∀ n, runEnd c (n + k) s = runEnd c n (commandDone c gap i rest s) := by
  let waited : State := { s with cyc := s.cyc + gap, inputs := .issue w :: rest }
  let issued : State := { s with cyc := s.cyc + gap, inputs := rest, pending := .uWAIT c.cCmd :: expand c i }
  have hidle : stepWith c (execWith c) s = .next waited := stepWith_move hi (sequencerMoves_idle hs.idle)
  have hissue : stepWith c (execWith c) waited = .next issued :=
    (stepWith_move (s := waited) rfl (sequencerMoves_idle hs.idle)).trans (accept_start hw hs.idle hs.output)
  refine ⟨issued.pending.length + 1 + 1, fun n => ?_⟩
  rw [← Nat.add_assoc, runEnd_next _ (runEnds_of_host hi rfl) hidle, ← Nat.add_assoc,
    runEnd_next _ (runEnds_of_host (s := waited) rfl rfl) hissue]
  exact runEnd_settle c (s := issued) hu hs.noInterrupts rfl n

/-- SEND_PIXEL of a 24-bit argument (43_pixel_emitter.md R150). -/
def sendArg (a : Arg) : Instr := .sendPixel (a.extractLsb' 16 8) (a.extractLsb' 8 8) (a.extractLsb' 0 8)

theorem decode_sendArg (a : Arg) : decode (packWord 0x8 a) = .ok (sendArg a) := by
  have hword : encode (sendArg a) = packWord 0x8 a := congrArg (packWord 0x8) (pixelArg_fields a)
  rw [← hword, decode_encode]

theorem commandDone_sendArg {c : Config} (hc : c.Admitted) {s : State} (hs : s.LineLow) (p : Nat × Arg)
    (rest : List Move) :
    commandDone c p.1 (sendArg p.2) rest s =
      { s with
        cyc := pixelDone c s.cyc p
        inputs := rest
        trace := s.trace ++ bytesEvents c (s.cyc + p.1 + c.cCmd) (argChannels p.2) } := by
  have hset := settle_sendPixel hc (p.2.extractLsb' 16 8) (p.2.extractLsb' 8 8) (p.2.extractLsb' 0 8)
    (s := { s with cyc := s.cyc + p.1, inputs := rest }) hs.idle hs.output hs.shows
  refine hset.trans ?_
  rw [← pixelArg, pixelArg_fields]
  simp [hs.low, pixelDone, argChannels]

theorem commandDone_latch (c : Config) {s : State} (hs : s.LineLow) (gap : Nat) (rest : List Move) :
    commandDone c gap .latch rest s =
      { s with cyc := s.cyc + gap + c.cCmd + c.cPin + nLatch c, inputs := rest } := by
  have hset := settle_latch c (s := { s with cyc := s.cyc + gap, inputs := rest }) hs.idle hs.output hs.shows (nLatch c)
  refine hset.trans ?_
  simp [hs.low]

/-- A SEND_PIXEL leaves the line as it was. -/
theorem commandDone_lineLow {c : Config} (hc : c.Admitted) {s : State} (hs : s.LineLow) (p : Nat × Arg)
    (rest : List Move) : (commandDone c p.1 (sendArg p.2) rest s).LineLow := by
  have hdone := commandDone_sendArg hc hs p rest
  exact ⟨by rw [hdone, hs.idle], by rw [hdone, hs.output], by rw [hdone, hs.low], by rw [hdone, hs.noInterrupts],
    settle_shows c hs.shows⟩

theorem frameMoves_undisturbed {s : State} {px : List (Nat × Arg)} {lastGap : Nat}
    (hi : s.inputs = frameMoves px lastGap) : s.undisturbed = true := by
  rw [State.undisturbed, hi]
  cases px <;> rfl

/-- A run goes through the moves of a frame, makes the frame's events, latches, and ends. -/
theorem runEnd_frame {c : Config} (hc : c.Admitted) (px : List (Nat × Arg)) (lastGap : Nat) {s : State} (hs : s.LineLow)
    (hi : s.inputs = frameMoves px lastGap) :
    ∃ n, runEnd c n s = some { s with
      inputs := []
      cyc := px.foldl (pixelDone c) s.cyc + lastGap + c.cCmd + c.cPin + nLatch c
      trace := s.trace ++ frameEvents c s.cyc px } := by
  induction px generalizing s with
  | nil =>
    obtain ⟨k, hk⟩ := runEnd_idle_issue c hs hi (decode_encode .latch) rfl
    have hdone := commandDone_latch c hs lastGap []
    refine ⟨0 + k, ?_⟩
    rw [hk, hdone, frameEvents, List.append_nil, List.foldl_nil]
    exact runEnd_here 0 (runEnds_of_nil rfl hs.idle)
  | cons p px ih =>
    have hmoves : s.inputs = .idle p.1 :: .issue (packWord 0x8 p.2) :: frameMoves px lastGap := hi
    obtain ⟨k, hk⟩ := runEnd_idle_issue c hs hmoves (decode_sendArg p.2) (frameMoves_undisturbed (px := px) rfl)
    have hlow := commandDone_lineLow hc hs p (frameMoves px lastGap)
    rw [commandDone_sendArg hc hs] at hk hlow
    obtain ⟨n, hn⟩ := ih hlow rfl
    refine ⟨n + k, ?_⟩
    rw [hk, hn, frameEvents, List.append_assoc, List.foldl_cons]

/-! ## End to end (46_waveform.md R196) -/

theorem State.ReadyToSend.lineLow {s : State} (hs : s.ReadyToSend) : s.LineLow :=
  ⟨hs.idle, hs.output, hs.low, hs.noInterrupts, hs.traceOk.shows⟩

theorem frameBits_eq_flatMap (px : List (Nat × Arg)) : frameBits px = (framePixels px).flatMap Pixel.bits := by
  simp only [frameBits, framePixels, List.flatMap_map, Pixel.bits, pixelBits_eq_byteBits]

theorem pixels_of_frameBits (px : List (Nat × Arg)) (latched : Bool) :
    (⟨frameBits px, latched⟩ : Frame).pixels = (framePixels px, []) := by
  have hpixels := Frame.pixels_flatMap (framePixels px) (rest := []) (by decide) latched
  rwa [List.append_nil, ← frameBits_eq_flatMap] at hpixels

/-- Settles O58: the run makes the frame's events, which are one train of pulses, latched by the hold of LATCH (CAL5), and
the receiver reads a train as one frame. -/
theorem frameArrivesAsOneLatchedFrame : Obligations.FrameArrivesAsOneLatchedFrame := by
  intro c s first others lastGap hc hcal hs hgaps hi
  obtain ⟨n, hrun⟩ := runEnd_frame hc (first :: others) lastGap hs.lineLow hi
  refine ⟨n, _, hrun, rfl, hs.idle, rfl, rfl, rfl, fun band tEnd hend => ?_⟩
  have htrain := frameEvents_train hcal s.cyc first others hgaps
  have hlow : s.lastPin = some .L := by rw [hs.traceOk.shows, eff_out hs.output, hs.low]; rfl
  have hrise : s.cyc < s.cyc + first.1 + c.cCmd + c.cByteOvh + c.cBitOvh + c.cPin := by
    have hpin := hc.cPin_pos
    omega
  have hlatch : (first :: others).foldl (pixelDone c) s.cyc + c.tResetCyc ≤ tEnd := by
    have hhold := hcal.cal5
    dsimp only at hend
    omega
  exact ⟨_, htrain.decodeTrace_eq hc hcal hs.traceOk.past hlow hs.lowNow hrise hlatch band, rfl, rfl,
    pixels_of_frameBits _ _⟩

end Sys2Proof.Machine
end

section
/-! PROOFS. The faults of 60_exceptions.md: which word written to CMD raises which, that one write raises at most one, and
that a synchronous host never overruns the block. -/

namespace Sys2Proof.Machine

/-! ## A word written to CMD (20_memory.md R56, 60_exceptions.md R215) -/

/-- An asynchronous host's `IssueBusy` while busy writes its word. -/
theorem step_issueBusy_eq_accept {s : State} {w : Word} {rest : List Move} (hi : s.inputs = .issueBusy w :: rest)
    (hp : s.pending ≠ []) (hk : s.hostKind = .async) : step s = accept cfg exec w { s with inputs := rest } := by
  have hbusy : (({ s with inputs := rest } : State).busy && s.hostKind == .async) = true :=
    (Bool.and_eq_true _ _).mpr ⟨busy_eq_true.2 hp, beq_iff_eq.2 hk⟩
  rw [step_ready hi (.inr rfl)]
  exact if_pos hbusy

/-- A raw write to CMD that need not wait writes its word. -/
theorem step_writeCmd_eq_accept {s : State} {w : Word} {rest : List Move} (hi : s.inputs = .regWrite 0 4 w :: rest)
    (hw : s.pending = [] ∨ s.hostKind = .async) : step s = accept cfg exec w { s with inputs := rest } := by
  rw [step_ready hi (hw.imp_right fun hk => by rw [hk]; rfl)]
  rfl

/-- While busy any word, legal or not, is dropped undecoded. -/
theorem accept_busy {c : Config} {ex : Instr → State → Outcome} {w : Word} {s : State} (hp : s.pending ≠ []) :
    accept c ex w s = .next (overrun s) :=
  if_pos (busy_eq_true.2 hp)

/-- While not busy an illegal word is turned away. -/
theorem accept_illegal {c : Config} {ex : Instr → State → Outcome} {w : Word} {s : State} (hp : s.pending = [])
    (hl : Legal w = false) : accept c ex w s = .next (illegal c s) := by
  obtain ⟨e, he⟩ := decode_illegal hl
  simp [accept, busy_eq_false.2 hp, he]

/-! ## OVERRUN (60_exceptions.md R204) -/

/-- Settles O17: both moves that write a word while busy have it accepted, which drops it. -/
theorem writeWhileBusySetsOverrunOnly : Obligations.WriteWhileBusySetsOverrunOnly := by
  rintro s w rest hp hk (hi | hi)
  · rw [step_issueBusy_eq_accept hi hp hk]
    exact accept_busy (s := { s with inputs := rest }) hp
  · rw [step_writeCmd_eq_accept hi (.inr hk)]
    exact accept_busy (s := { s with inputs := rest }) hp

/-! ## ILLEGAL (60_exceptions.md R202) -/

/-- A word turned away costs its dispatch wait and nothing else. -/
theorem settle_dispatchWait (c : Config) {s : State} (hp : s.pending = []) :
    settle c { s with pending := [.uWAIT c.cCmd] } = { s with cyc := s.cyc + c.cCmd } :=
  settle_withPending_idle c hp _

/-- The classes of illegal words: a reserved opcode, a reserved field that is not 0, and for each sub-form a must-be-0
field that is not. -/
theorem legal_eq_false_of_fields {w : Word}
    (h : opField w ∈ [0xA#4, 0xB#4, 0xC#4, 0xD#4, 0xE#4, 0xF#4] ∨ rsvField w ≠ 0 ∨
      (opField w ∈ [0x0#4, 0x1#4, 0x2#4, 0x3#4, 0x5#4, 0x9#4] ∧ argField w ≠ 0) ∨
      (opField w = 0x4#4 ∧ (argField w).extractLsb' 16 8 ≠ 0) ∨
      (opField w = 0x6#4 ∧ (argField w).extractLsb' 1 23 ≠ 0) ∨
      (opField w = 0x7#4 ∧ (argField w).extractLsb' 8 16 ≠ 0)) : Legal w = false := by
  have hreserved : ∀ op ∈ [0xA#4, 0xB#4, 0xC#4, 0xD#4, 0xE#4, 0xF#4],
      op ∉ [0x0#4, 0x1#4, 0x2#4, 0x3#4, 0x5#4, 0x9#4] ∧ op ≠ 0x4#4 ∧ op ≠ 0x6#4 ∧ op ≠ 0x7#4 ∧ op ≠ 0x8#4 := by decide
  have hformZ : ∀ op ∈ [0x0#4, 0x1#4, 0x2#4, 0x3#4, 0x5#4, 0x9#4],
      op ≠ 0x4#4 ∧ op ≠ 0x6#4 ∧ op ≠ 0x7#4 ∧ op ≠ 0x8#4 := by decide
  by_contra hl
  obtain ⟨hrsv, hform⟩ := (legal_iff_fields w).1 (Bool.eq_true_of_not_eq_false hl)
  obtain hop | hne | ⟨hop, hne⟩ | ⟨hop, hne⟩ | ⟨hop, hne⟩ | ⟨hop, hne⟩ := h
  · simp only [hreserved _ hop, false_and, or_self] at hform
  · exact hne hrsv
  · simp only [hformZ _ hop, hne, and_false, false_and, or_self] at hform
  all_goals exact hne (by simpa [hop] using hform)

/-- Settles O15: the issued word is turned away for its dispatch wait; the classes of illegal words by their fields. -/
theorem illegalWordSetsIllegal : Obligations.IllegalWordSetsIllegal := by
  refine ⟨fun s w rest hi hp hl => ⟨?_, ?_⟩, fun w => legal_eq_false_of_fields⟩
  · rw [step_ready hi (.inl hp)]
    exact accept_illegal (s := { s with inputs := rest }) hp hl
  · rw [settle_dispatchWait cfg (s := { s with inputs := rest, fIllegal := true }) hp]

/-! ## NOINIT (60_exceptions.md R203) -/

theorem needsInit_eq_true_iff (i : Instr) :
    i.needsInit = true ↔
      (∃ v, i = .emitBit v) ∨ (∃ x, i = .emitByte x) ∨ (∃ g r b, i = .sendPixel g r b) ∨ i = .latch := by
  cases i <;> simp [Instr.needsInit]

theorem needsInit_eq_false_iff (i : Instr) :
    i.needsInit = false ↔
      i = .nop ∨ i = .pinOutput ∨ i = .pinHigh ∨ i = .pinLow ∨ (∃ u, i = .delayUs u) ∨ i = .init := by
  cases i <;> simp [Instr.needsInit]

/-- The commands that need INIT have the opcodes from 6 up (30_encoding.md R72, R80). -/
theorem needsInit_eq_decide (i : Instr) : i.needsInit = decide (6 ≤ i.opcode.toNat) := by cases i <;> rfl

/-- When the acceptance of a legal command raises NOINIT. -/
theorem acceptCommand_fNoinit (c : Config) (n : Bool) (ops : List MicroOp) (s : State) :
    (acceptCommand c n ops s).fNoinit = (s.fNoinit || (!s.busy && (s.dir == .IN && n))) := by
  obtain ⟨hp, e⟩ | ⟨hp, rfl, hd, e⟩ | ⟨-, rfl | hd, e⟩ := acceptCommand_cases c n ops s
  · simp [e, busy_eq_true.2 hp]
  · simp [e, busy_eq_false.2 hp, hd]
  · simp [e]
  · simp [e, hd]

/-- The acceptance of a legal command never raises ILLEGAL. -/
theorem acceptCommand_fIllegal (c : Config) (n : Bool) (ops : List MicroOp) (s : State) :
    (acceptCommand c n ops s).fIllegal = s.fIllegal := by
  obtain ⟨-, e⟩ | ⟨-, -, -, e⟩ | ⟨-, -, e⟩ := acceptCommand_cases c n ops s <;> rw [e] <;> rfl

/-- The acceptance of a legal command raises OVERRUN exactly while busy. -/
theorem acceptCommand_fOverrun (c : Config) (n : Bool) (ops : List MicroOp) (s : State) :
    (acceptCommand c n ops s).fOverrun = (s.fOverrun || s.busy) := by
  obtain ⟨hp, e⟩ | ⟨hp, -, -, e⟩ | ⟨hp, -, e⟩ := acceptCommand_cases c n ops s
  · simp [e, busy_eq_true.2 hp]
  · simp [e, busy_eq_false.2 hp]
  · simp [e, busy_eq_false.2 hp]

/-- Settles O16: before INIT the four that need it are turned away for their dispatch wait, and the acceptance of the
other six has no NOINIT to raise. -/
theorem emissionBeforeInitSetsNoinit : Obligations.EmissionBeforeInitSetsNoinit := by
  refine ⟨fun s i hp hd hi => ⟨?_, ?_⟩, fun s i t h hi => ?_⟩
  · exact exec_noinit hp ((needsInit_eq_true_iff i).2 hi) hd
  · rw [settle_dispatchWait cfg (s := { s with fNoinit := true }) hp]
  · rw [exec_eq, (needsInit_eq_false_iff i).2 hi] at h
    cases h
    simp [acceptCommand_fNoinit]

/-! ## At most one fault (60_exceptions.md R206) -/

/-- The faults a legal word raises while not busy: NOINIT, by its opcode and the direction, or none. -/
theorem accept_legal_faults {w : Word} {s t : State} (hp : s.pending = []) (hl : Legal w = true)
    (h : accept cfg exec w s = .next t) :
    t.fOverrun = s.fOverrun ∧ t.fIllegal = s.fIllegal ∧
      t.fNoinit = (s.fNoinit || (s.dir == .IN && decide (6 ≤ (opField w).toNat))) := by
  obtain ⟨i, rfl⟩ := exists_encode_of_legal hl
  rw [accept_decoded (decode_encode i), exec_eq] at h
  cases h
  rw [encode, opField_packWord, ← needsInit_eq_decide]
  simp [acceptCommand_fOverrun, acceptCommand_fIllegal, acceptCommand_fNoinit, busy_eq_false.2 hp]

/-- Settles O18: the write has its word accepted, and BUSY and `Legal` say which of the three faults can come of it. -/
theorem oneWriteRaisesAtMostOneFault : Obligations.OneWriteRaisesAtMostOneFault := by
  intro s w rest t hi hw h
  rw [step_writeCmd_eq_accept hi hw] at h
  refine ⟨fun hp => ?busy, fun hp hl => ?illegal, fun hp hl => accept_legal_faults (s := { s with inputs := rest }) hp hl h⟩
  case busy =>
    rw [accept_busy (s := { s with inputs := rest }) hp] at h
    cases h
    exact ⟨rfl, rfl, rfl⟩
  case illegal =>
    rw [accept_illegal (s := { s with inputs := rest }) hp hl] at h
    cases h
    exact ⟨rfl, rfl, rfl⟩

/-! ## A synchronous host (60_exceptions.md R215) -/

theorem StepEffect.hostKind_eq {c : Config} {s t : State} (h : StepEffect c s t) : t.hostKind = s.hostKind := by
  cases h with
  | sequencer st => exact seqStep_hostKind c st s
  | overrun | illegal | noinit | start | read | ignored | idle | setIE | reset | resetAt => rfl

/-- A step adds no move. -/
theorem StepEffect.inputs_subset {c : Config} {s t : State} (h : StepEffect c s t) : t.inputs ⊆ s.inputs := by
  cases h with
  | sequencer _ _ _ _ _ _ _ hi => exact fun m => hi m
  | overrun m rest hi | illegal m rest hi | noinit m rest hi | start m rest _ hi | read m rest _ hi | ignored m rest hi
  | idle _ rest hi | setIE _ rest hi | reset rest hi | resetAt _ rest hi =>
    exact hi ▸ List.subset_cons_self _ rest

/-- Only an asynchronous host's write while busy raises OVERRUN. -/
theorem StepEffect.async_of_fOverrun {c : Config} {s t : State} (h : StepEffect c s t) (hs : s.fOverrun = false)
    (ht : t.fOverrun = true) : s.hostKind = .async := by
  cases h with
  | overrun _ _ _ _ _ hk => exact hk
  | sequencer | illegal | noinit | start | read | ignored | idle | setIE => simp [hs] at ht
  | reset | resetAt => simp [doResetAt] at ht

/-- Settles O44: a step keeps the host's kind and adds no move, and of a synchronous host none raises OVERRUN. -/
theorem synchronousHostNeverOverruns : Obligations.SynchronousHostNeverOverruns := by
  rintro s t ⟨hk, hmoves⟩ hs h
  have e := step_effect h
  refine ⟨⟨e.hostKind_eq.trans hk, fun m hm => hmoves m (e.inputs_subset hm)⟩, ?_⟩
  by_contra ht
  simp [e.async_of_fOverrun hs (Bool.eq_true_of_not_eq_false ht)] at hk

end Sys2Proof.Machine
end

section
/-! PROOFS. How a run goes on and where it ends (60_exceptions.md R210, R220): the sequencer's turns while the host waits,
the completion of every command under any stalls, and the first state in which a run ends. -/

namespace Sys2Proof.Machine

/-! ## The sequencer's turn while the host waits (60_exceptions.md R210) -/

/-- The sequencer's step of its own accord, by the interrupt enable: no stall, or the next one drawn. -/
theorem seqStepDrawn_cases (c : Config) (s : State) :
    (s.ie = false ∧ seqStepDrawn c s = seqStep c 0 s) ∨
    (s.ie = true ∧ seqStepDrawn c s = { seqStep c (Config.stallDraw s.draws) s with draws := s.draws + 1 }) := by
  cases hie : s.ie with
  | false => exact .inl ⟨rfl, by simp [seqStepDrawn, hie]⟩
  | true => exact .inr ⟨rfl, by simp [seqStepDrawn, hie]⟩

theorem stepWith_undisturbed_drawn {c : Config} {ex : Instr → State → Outcome} {s : State} (hp : s.pending ≠ [])
    (hu : s.undisturbed = true) : stepWith c ex s = .next (seqStepDrawn c s) :=
  stepWith_sequencer ((Bool.and_eq_true _ _).mpr ⟨busy_eq_true.2 hp, hu⟩)

/-- Settles O33: busy and undisturbed, the step is the sequencer's, whose stall is 0 or drawn by the interrupt enable. -/
theorem sequencerStepsWhileTheHostWaits : Obligations.SequencerStepsWhileTheHostWaits := by
  intro s hp hu
  have hstep : step s = .next (seqStepDrawn cfg s) := stepWith_undisturbed_drawn hp hu
  obtain ⟨hie, e⟩ | ⟨hie, e⟩ := seqStepDrawn_cases cfg s
  · exact ⟨fun _ => hstep.trans (congrArg _ e), by simp [hie]⟩
  · exact ⟨by simp [hie], fun _ => ⟨_, hstep.trans (congrArg _ e)⟩⟩

/-! ## Every command completes (60_exceptions.md R220) -/

theorem undisturbed_seqStepDrawn (c : Config) (s : State) : (seqStepDrawn c s).undisturbed = s.undisturbed := by
  simp only [State.undisturbed, seqStepDrawn_inputs, seqStepDrawn_hostKind]

theorem seqStep_cyc (c : Config) (st : Nat) {s : State} {op : MicroOp} {ops : List MicroOp} (ho : s.pending = op :: ops) :
    (seqStep c st s).cyc = s.cyc + st + op.cost c := by
  simp [seqStep_cons ho]

/-- The sequencer's step of its own accord takes the head's cost and a stall, which is 0 while interrupts are disabled. -/
theorem seqStepDrawn_cyc (c : Config) {s : State} {op : MicroOp} {ops : List MicroOp} (ho : s.pending = op :: ops) :
    ∃ st, (s.ie = false → st = 0) ∧ (seqStepDrawn c s).cyc = s.cyc + st + op.cost c := by
  obtain ⟨-, e⟩ | ⟨hie, e⟩ := seqStepDrawn_cases c s
  · exact ⟨0, fun _ => rfl, by rw [e, seqStep_cyc c 0 ho]⟩
  · exact ⟨_, by simp [hie], by rw [e]; exact seqStep_cyc c _ ho⟩

/-- One step for each pending micro-operation completes the command in flight, in the list's cost and a total stall. -/
theorem runWith_completes (c : Config) {ops : List MicroOp} {s : State} (ho : s.pending = ops)
    (hu : s.undisturbed = true) :
    ∃ t stall, runWith c ops.length s = .next t ∧ t.pending = [] ∧ t.inputs = s.inputs ∧
      (s.ie = false → stall = 0) ∧ t.cyc = s.cyc + dur c ops + stall := by
  induction ops generalizing s with
  | nil => exact ⟨s, 0, rfl, ho, rfl, fun _ => rfl, rfl⟩
  | cons op ops ih =>
    obtain ⟨st, hst, hcyc⟩ := seqStepDrawn_cyc c ho
    obtain ⟨t, stall, hrun, hp, hi, hstall, ht⟩ :=
      ih (s := seqStepDrawn c s) (by simp [ho]) ((undisturbed_seqStepDrawn c s).trans hu)
    have hstep := stepWith_undisturbed_drawn (c := c) (ex := execWith c) (ho ▸ List.cons_ne_nil op ops) hu
    refine ⟨t, st + stall, ?_, hp, by simpa using hi, fun hie => ?_, ?_⟩
    · rw [List.length_cons, runWith, hstep]
      exact hrun
    · rw [hst hie, hstall (by simpa using hie)]
    · rw [ht, hcyc, dur]
      omega

/-- Settles O35: the list's cost and a total stall, which is 0 while interrupts are disabled. -/
theorem everyCommandCompletes : Obligations.EveryCommandCompletes := by
  intro s hu
  obtain ⟨t, stall, hrun, hp, hi, hstall, hcyc⟩ := runWith_completes cfg rfl hu
  exact ⟨t, (run_eq_runWith _ s).trans hrun, hp, hi, by omega, fun hie => by rw [hcyc, hstall hie, Nat.add_zero]⟩

/-! ## The end of a run (60_exceptions.md R220) -/

theorem isHost_eq_false_iff (m : Move) :
    m.isHost = false ↔ (∃ st, m = .seq st) ∨ m = .reset ∨ ∃ d, m = .resetAt d := by
  cases m <;> simp [Move.isHost]

theorem runEnds_iff (s : State) :
    s.runEnds = true ↔
      (∀ m ∈ s.inputs, (∃ st, m = .seq st) ∨ m = .reset ∨ ∃ d, m = .resetAt d) ∧ s.pending = [] := by
  simp only [State.runEnds, State.hostDone, Bool.and_eq_true, List.all_eq_true, Bool.not_eq_true', isHost_eq_false_iff,
    busy_eq_false]

theorem endsWell_iff (s : State) :
    s.endsWell = true ↔ s.runEnds = true ∧ s.fIllegal = false ∧ s.fNoinit = false ∧ s.fOverrun = false := by
  simp only [State.endsWell, State.faultFree, Bool.and_eq_true, Bool.not_eq_true', and_assoc]

/-- `k` steps take `s` to `t`, where a run ends, and none ends at a state before it. -/
def EndsFirstAt (c : Config) (k : Nat) (s t : State) : Prop :=
  runWith c k s = .next t ∧ t.runEnds = true ∧ ∀ j, j < k → ∀ u, runWith c j s = .next u → u.runEnds = false

theorem endsFirstAt_zero {c : Config} {s t : State} : EndsFirstAt c 0 s t ↔ s.runEnds = true ∧ s = t := by
  simp only [EndsFirstAt, runWith, Host.Outcome.next.injEq, Nat.not_lt_zero, false_implies, implies_true, and_true]
  exact ⟨fun ⟨e, h⟩ => ⟨e ▸ h, e⟩, fun ⟨h, e⟩ => ⟨e, e ▸ h⟩⟩

theorem runWith_succ_eq_next_iff {c : Config} {k : Nat} {s t : State} :
    runWith c (k + 1) s = .next t ↔ ∃ u, stepWith c (execWith c) s = .next u ∧ runWith c k u = .next t := by
  rw [runWith]
  cases stepWith c (execWith c) s <;> simp

/-- A run that ends after one step or more does not end here, and ends as far from the step's next state. -/
theorem endsFirstAt_succ {c : Config} {k : Nat} {s t : State} :
    EndsFirstAt c (k + 1) s t ↔
      s.runEnds = false ∧ ∃ u, stepWith c (execWith c) s = .next u ∧ EndsFirstAt c k u t := by
  constructor
  · rintro ⟨hrun, hend, hfirst⟩
    obtain ⟨u, hstep, hrun⟩ := runWith_succ_eq_next_iff.1 hrun
    exact ⟨hfirst 0 (Nat.succ_pos k) s rfl, u, hstep, hrun, hend, fun j hj v hv =>
      hfirst (j + 1) (Nat.succ_lt_succ hj) v (runWith_succ_eq_next_iff.2 ⟨u, hstep, hv⟩)⟩
  · rintro ⟨hs, u, hstep, hrun, hend, hfirst⟩
    refine ⟨runWith_succ_eq_next_iff.2 ⟨u, hstep, hrun⟩, hend, fun j hj v hv => ?_⟩
    cases j with
    | zero => cases hv; exact hs
    | succ j =>
      obtain ⟨u', hstep', hv⟩ := runWith_succ_eq_next_iff.1 hv
      cases hstep.symm.trans hstep'
      exact hfirst j (Nat.lt_of_succ_lt_succ hj) v hv

theorem runEnd_zero_eq_some_iff {c : Config} {s t : State} : runEnd c 0 s = some t ↔ s.runEnds = true ∧ s = t := by
  simp [runEnd]

/-- `runEnd` stops here where a run ends, and elsewhere goes on from the step's next state. -/
theorem runEnd_succ_eq_some_iff {c : Config} {n : Nat} {s t : State} :
    runEnd c (n + 1) s = some t ↔
      (s.runEnds = true ∧ s = t) ∨
      (s.runEnds = false ∧ ∃ u, stepWith c (execWith c) s = .next u ∧ runEnd c n u = some t) := by
  cases hs : s.runEnds with
  | true => simp [runEnd_here _ hs]
  | false =>
    rw [runEnd, hs]
    cases stepWith c (execWith c) s <;> simp

theorem runEnd_eq_some_iff {c : Config} {n : Nat} {s t : State} :
    runEnd c n s = some t ↔ ∃ k, k ≤ n ∧ EndsFirstAt c k s t := by
  induction n generalizing s with
  | zero => simp [runEnd_zero_eq_some_iff, endsFirstAt_zero]
  | succ n ih =>
    simp only [runEnd_succ_eq_some_iff, ih, ← Nat.lt_succ_iff, Nat.exists_lt_succ_left (n := n.succ), endsFirstAt_zero,
      endsFirstAt_succ]
    exact or_congr Iff.rfl ⟨fun ⟨hs, u, hstep, k, hk, hend⟩ => ⟨k, hk, hs, u, hstep, hend⟩,
      fun ⟨k, hk, hs, u, hstep, hend⟩ => ⟨hs, u, hstep, k, hk, hend⟩⟩

/-- Settles O60: the two ends by their conditions, and `runEnd` by `EndsFirstAt`, both of which go on step by step. -/
theorem runEndsAtTheFirstIdleStateWithTheHostDone : Obligations.RunEndsAtTheFirstIdleStateWithTheHostDone :=
  fun _ _ s _ => ⟨runEnds_iff s, endsWell_iff s, runEnd_eq_some_iff⟩

end Sys2Proof.Machine
end

section
/-! PROOFS. Reset and the timing of commands (70_reset_and_hazards.md): what power-on and a reset at any time leave, where a
reset may fall inside a micro-operation, and how long each command takes. -/

namespace Sys2Proof.Machine

/-! ## Power-on (70_reset_and_hazards.md R240) -/

/-- Settles O36: the one event of the power-on trace is (0, Z), and the pin is not driven. -/
theorem traceInvariantHoldsAtReset : Obligations.TraceInvariantHoldsAtReset where
  begins := rfl
  ordered := List.pairwise_singleton _ _
  past := by simp [State.reset]
  changes := trivial
  shows := rfl

/-! ## Reset (70_reset_and_hazards.md R240) -/

/-- An idle, undriven block with the latch LOW and no fault reads as 0. -/
theorem status_eq_zero {s : State} (hp : s.pending = []) (hd : s.dir = .IN) (hl : s.level = false)
    (hf : s.faultFree = true) : status s = 0 := by
  simp only [State.faultFree, Bool.and_eq_true, Bool.not_eq_true'] at hf
  obtain ⟨⟨hill, hnoinit⟩, hover⟩ := hf
  rw [status, busy_eq_false.2 hp, hd, hl, hill, hnoinit, hover]
  rfl

theorem status_doReset (s : State) : status (doReset s) = 0 :=
  status_eq_zero (doReset_pending s) (doReset_dir s) (doReset_level s) (doResetAt_faultFree 0 s)

/-- A reset never waits. -/
theorem step_reset {s : State} {rest : List Move} (hi : s.inputs = .reset :: rest) :
    step s = .next (doReset { s with inputs := rest }) := step_ready hi (.inr rfl)

/-- Settles O9: power-on by its definition, and the step that resets, field by field. -/
theorem resetLeavesTheStatedValues : Obligations.ResetLeavesTheStatedValues := by
  refine ⟨⟨rfl, rfl, rfl, rfl, rfl, rfl, rfl, rfl, rfl, status_eq_zero rfl rfl rfl rfl⟩, fun s rest hi => ?_⟩
  exact ⟨_, step_reset hi, doReset_dir _, doReset_level _, doReset_fIllegal _, doReset_fNoinit _, doReset_fOverrun _,
    doReset_pending _, doReset_ie _, doReset_cyc _, status_doReset _, doReset_trace _, doReset_inputs _⟩

/-! ## Reset inside a micro-operation (70_reset_and_hazards.md R241) -/

theorem resetAtEnabled_eq_true {c : Config} {d : Nat} {s : State} :
    resetAtEnabled c d s = true ↔
      (s.pending = [] ∧ d = 0) ∨ ∃ op ops, s.pending = op :: ops ∧ d < op.cost c := by
  cases hp : s.pending <;> simp [resetAtEnabled, hp]

/-- `ResetAt(d)` never waits: it is made, or the machine stops. -/
theorem step_resetAt {s : State} {d : Nat} {rest : List Move} (hi : s.inputs = .resetAt d :: rest) :
    step s = if resetAtEnabled cfg d s then .next (doResetAt d { s with inputs := rest }) else .fault .resetNotInside :=
  step_ready hi (.inr rfl)

/-- Settles O10: the step is made exactly where it is enabled, and is then the reset of the state `d` cycles later. -/
theorem resetInsideAMicroOpCutsItShort : Obligations.ResetInsideAMicroOpCutsItShort := by
  intro s d rest hi
  have hstep := step_resetAt hi
  refine ⟨fun hin => ?_, fun hout => ?_⟩
  · rw [if_pos (resetAtEnabled_eq_true.2 hin)] at hstep
    exact ⟨_, hstep, doReset_dir _, doReset_level _, doReset_fIllegal _, doReset_fNoinit _, doReset_fOverrun _,
      doReset_pending _, doReset_ie _, doReset_cyc _, doReset_trace _⟩
  · rwa [if_neg (mt resetAtEnabled_eq_true.1 hout)] at hstep

/-! ## The durations of the commands (70_reset_and_hazards.md R259) -/

theorem dur_nops (c : Config) (n : Nat) : dur c (List.replicate n .uNOP) = n * c.cNop := by
  induction n with
  | zero => simp [dur]
  | succ n ih => rw [List.replicate_succ, dur, ih, MicroOp.cost, Nat.succ_mul, Nat.add_comm]

theorem dur_bitOps {c : Config} (hc : c.Admitted) (v : Bool) : dur c (bitOps c v) = 2 * c.cPin + nH c v + nL c v := by
  simp only [bitOps, dur_append, dur_nops, dur, MicroOp.cost, hc.cNop_one]
  omega

theorem dur_byteTurn {c : Config} (hc : c.Admitted) (v : Bool) : dur c (byteTurn c v) = period c v := by
  simp only [byteTurn, dur, MicroOp.cost, dur_bitOps hc, period]
  omega

/-- The turns of the byte loop take the periods of their bits. -/
theorem dur_byteTurns {c : Config} (hc : c.Admitted) (bits : List Bool) :
    dur c (bits.flatMap (byteTurn c)) = periodSum c bits := by
  induction bits with
  | nil => rfl
  | cons v vs ih => rw [List.flatMap_cons, dur_append, dur_byteTurn hc, ih, periodSum_cons]

theorem dur_byteOps {c : Config} (hc : c.Admitted) (x : Byte) : dur c (byteOps c x) = periodSum c (byteBits x) := by
  rw [byteOps_eq_flatMap, dur_byteTurns hc]

/-- The turns of the pixel loop take their bookkeeping and the periods of the bits of their bytes. -/
theorem dur_pixelTurns {c : Config} (hc : c.Admitted) (xs : List Byte) :
    dur c (xs.flatMap (pixelTurn c)) = xs.length * c.cByteOvh + periodSum c (xs.flatMap byteBits) := by
  induction xs with
  | nil => simp [dur, periodSum]
  | cons x xs ih =>
    rw [List.flatMap_cons, List.flatMap_cons, dur_append, ih, pixelTurn, dur, MicroOp.cost, dur_byteOps hc,
      periodSum_append, List.length_cons]
    ring

theorem dur_pixelOps {c : Config} (hc : c.Admitted) (g r b : Byte) :
    dur c (pixelOps c (pixelArg g r b)) = 3 * c.cByteOvh + periodSum c (pixelBits (pixelArg g r b)) := by
  rw [pixelArg, pixelOps_eq_flatMap, dur_pixelTurns hc, pixelBits_eq_flatMap]
  rfl

/-- The dispatch wait and the micro-program of a command take its stated duration. -/
theorem dur_dispatched {c : Config} (hc : c.Admitted) (i : Instr) :
    dur c (.uWAIT c.cCmd :: expand c i) = duration c i := by
  rw [dur, MicroOp.cost]
  cases i with
  | nop => exact congrArg (c.cCmd + ·) hc.cNop_one
  | pinOutput | pinHigh | pinLow | delayUs => rfl
  | init => simp only [expand, expandInit, dur, MicroOp.cost, duration]; omega
  | emitBit v => simp only [expand, expandEmitBit, dur_bitOps hc, duration]; omega
  | emitByte x => simp only [expand, expandEmitByte, dur_byteOps hc, duration]
  | sendPixel g r b => simp only [expand, expandSendPixel, dur_pixelOps hc, duration]; omega
  | latch => simp only [expand, expandLatch, dur, MicroOp.cost, duration]; omega

/-- Settles O31: the answer of `exec` is a start, a NOINIT or an overrun, and its pending list says when it completes; an
illegal word, like a NOINIT, leaves the dispatch wait alone. -/
theorem commandsTakeTheirStatedDurations : Obligations.CommandsTakeTheirStatedDurations := by
  refine ⟨fun i s t h => ⟨fun hp hd => ?started, fun hp hn hd => ?noinit, fun hp => ?overrun⟩,
    fun w s t hp hl h => ?illegal⟩
  case started =>
    have hn : i.needsInit = false ∨ s.dir = .OUT := (Bool.eq_false_or_eq_true _).symm.imp_right hd
    cases h.symm.trans (exec_start hp hn)
    rw [settle_cyc, dur_dispatched cfg_admitted]
  case noinit =>
    cases h.symm.trans (exec_noinit hp hn hd)
    rw [settle_cyc]; rfl
  case overrun =>
    cases h.symm.trans (exec_busy hp)
    simp
  case illegal =>
    cases h.symm.trans (accept_illegal hp hl)
    rw [settle_cyc]; rfl

end Sys2Proof.Machine
end
